-- ==== Sys2Proof/Word.lean ====
section
/-!
DEFINITION. The words the block exchanges with its environment: the byte of the transport (20_memory.md R31), and the four
word formats in which spec/opcode_table.json writes an operation (30_encoding.md R40, R45, R54; 30_encoding.md R52 for the
reset pin).
-/

namespace Sys2Proof

/-- One byte, an unsigned number 0..255 with bit 7 the most significant (00_scope.md section 6). -/
abbrev Byte := BitVec 8

/-- A word of one of the four formats of the operation table. -/
inductive PortWord where
  /-- The 32-bit frame word `F`, the first byte received in bits 31:24 (R40). -/
  | frame (f : BitVec 32)
  /-- The 10-bit selector `{dstate[1:0], byte[7:0]}` (R45). -/
  | selector (x : BitVec 10)
  /-- The 18-bit local command word `{cmd_op, cmd_index, cmd_angle}` (R54). -/
  | command (x : BitVec 18)
  /-- The reset pin (R52). -/
  | resetPin (x : BitVec 1)
  deriving DecidableEq, Repr

end Sys2Proof
end

