-- ==== Sys2Proof/Config.lean ====
section
/-!
DEFINITION. The six configuration constants of the block (00_scope.md R5, R6; 10_state.md R20), the configuration that
`State.reset` holds, and the two things the spec leaves without a value: the bytes of the packet buffer after `RESET`
(10_state.md R24) and the terminator of a status line (30_encoding.md R49).
-/

namespace Sys2Proof

/-- The configuration record `cfg` (R5), with the types R6 gives its fields; an initial angle is the byte of R20. -/
structure Config where
  /-- `SERVO_COUNT`, written `N`. -/
  servoCount : Nat
  /-- `MIN_PULSE`, in 12-bit steps. -/
  minPulse : Nat
  /-- `MAX_PULSE`, in 12-bit steps. -/
  maxPulse : Nat
  /-- `PWM_FREQ`, in hertz. -/
  pwmFreq : Nat
  /-- `INIT_ANGLES[0..N-1]`, in degrees. -/
  initAngles : List Byte
  /-- `TRIM_OFFSETS[0..N-1]`, signed, in degrees. -/
  trimOffsets : List Int
  deriving DecidableEq, Repr

/-- The configuration `REF` of 95_test_vectors.md section 1. DESIGN CHOICE (log entry 2, unsafe): the spec gives a default
for `SERVO_COUNT` alone and leaves the other constants open; no statement rests on these numbers. -/
def Config.reference : Config where
  servoCount := 6
  minPulse := 150
  maxPulse := 600
  pwmFreq := 50
  initAngles := [90#8, 45#8, 0#8, 180#8, 10#8, 170#8]
  trimOffsets := [-5, 10, 0, 3, -128, 127]

/-- A free value: the `n`-th byte drawn for what the spec calls unspecified (R24, R110, 93_implementation_defined.md U3;
log entry 5, safe). Nothing constrains it. -/
opaque Config.freeByte : Nat → Byte

/-- The open parameter `STATUS_EOL`: the bytes that end a status line (R49, decision D17; log entry 12, safe). Nothing
constrains it. -/
opaque Config.statusEol : List Byte

end Sys2Proof
end

