-- ==== Sys2Proof/Syntax.lean ====
section
/-!
DEFINITION. The operations of the block, one constructor per row of spec/opcode_table.json.
-/

namespace Sys2Proof

/-- The eleven operations. A field the spec says is ignored (30_encoding.md R54) is kept as an operand, so that an operation
stands for exactly one word of its format (log entry 8). -/
inductive Instr where
  /-- SERVO_CMD: the four-byte frame (R40); its header byte is the constant 0xFF. -/
  | servoCmd (index angle checksum : Byte)
  /-- HDR_ACCEPT: the byte 0xFF while `AwaitingHeader` (R55). -/
  | hdrAccept
  /-- HDR_DROP: any other byte while `AwaitingHeader` (R56). -/
  | hdrDrop (b : Byte)
  /-- IDX_STORE: a byte while `AwaitingIndex` (R57). -/
  | idxStore (b : Byte)
  /-- ANG_STORE: a byte while `AwaitingAngle` (R58). -/
  | angStore (b : Byte)
  /-- CSUM_FINAL: a byte while `AwaitingChecksum` (R59). -/
  | csumFinal (b : Byte)
  /-- SETANGLE on the local command port (R70). -/
  | setAngle (index angle : Byte)
  /-- GETANGLE on the local command port; the angle field is ignored (R77, R54). -/
  | getAngle (index ignored : Byte)
  /-- DISABLEALL on the local command port; both fields are ignored (R78, R54). -/
  | disableAll (ignored : BitVec 16)
  /-- INIT on the local command port; both fields are ignored (R79, R54). -/
  | init (ignored : BitVec 16)
  /-- RESET: the reset pin, or the `RESET` event (R110, R52). -/
  | reset
  deriving DecidableEq, Repr

end Sys2Proof
end

