-- ==== Sys2Proof/WellFormed.lean ====
section
/-!
DEFINITION. Which operations have a word (the one restriction of the operation table), and which configurations the spec
admits (00_scope.md R6).
-/

namespace Sys2Proof

/-- The header value `HEADER` (00_scope.md R4). -/
def header : Byte := 0xFF#8

/-- The largest valid angle `ANGLE_MAX`, in degrees (00_scope.md R4). -/
def angleMax : Nat := 180

/-- An operation that some word stands for: HDR_DROP excludes the header value (30_encoding.md R45); every other operation
takes every value of its operands. -/
def Instr.wf : Instr → Bool
  | .servoCmd _ _ _ => true
  | .hdrAccept => true
  | .hdrDrop b => b != header
  | .idxStore _ => true
  | .angStore _ => true
  | .csumFinal _ => true
  | .setAngle _ _ => true
  | .getAngle _ _ => true
  | .disableAll _ => true
  | .init _ => true
  | .reset => true

/-- The constraints of 00_scope.md R6 on the configuration (decisions D7 to D11). -/
abbrev Config.Valid (c : Config) : Prop :=
  (1 ≤ c.servoCount ∧ c.servoCount ≤ 256) ∧
  (c.minPulse ≤ c.maxPulse ∧ c.maxPulse ≤ 4095) ∧
  (c.initAngles.length = c.servoCount ∧ ∀ a ∈ c.initAngles, a.toNat ≤ angleMax) ∧
  (c.trimOffsets.length = c.servoCount ∧ ∀ t ∈ c.trimOffsets, -128 ≤ t ∧ t ≤ 127)

end Sys2Proof
end

