-- ==== Sys2Proof/Decode.lean ====
section
/-!
DEFINITION. The decoder of the four word formats, and the encoder written from the same tables (30_encoding.md R40, R45, R54;
the reset pin of R52). Decoding is total: a word that stands for no operation is rejected by name.
-/

namespace Sys2Proof

/-- Why a word stands for no operation. -/
inductive DecodeError where
  /-- A 32-bit word whose first byte is not the header (R40). Safe: no operation is missed. -/
  | notAFrame (first : Byte)
  /-- The reset pin at 0, which is no event (R52). Safe. -/
  | resetNotAsserted
  deriving DecidableEq, Repr

/-- The four bytes of a frame word, first byte received in the high bits (R40). -/
def decodeFrame (f : BitVec 32) : Except DecodeError Instr :=
  if f.extractLsb' 24 8 = header then
    .ok (.servoCmd (f.extractLsb' 16 8) (f.extractLsb' 8 8) (f.extractLsb' 0 8))
  else .error (.notAFrame (f.extractLsb' 24 8))

/-- The five byte operations by decoder state and, in `AwaitingHeader`, by the byte (R45). -/
def decodeSelector (x : BitVec 10) : Instr :=
  if x.extractLsb' 8 2 = 0b00#2 then
    if x.extractLsb' 0 8 = header then .hdrAccept else .hdrDrop (x.extractLsb' 0 8)
  else if x.extractLsb' 8 2 = 0b01#2 then .idxStore (x.extractLsb' 0 8)
  else if x.extractLsb' 8 2 = 0b10#2 then .angStore (x.extractLsb' 0 8)
  else .csumFinal (x.extractLsb' 0 8)

/-- The four local operations by `cmd_op` (R54). -/
def decodeCommand (x : BitVec 18) : Instr :=
  if x.extractLsb' 16 2 = 0b00#2 then .setAngle (x.extractLsb' 8 8) (x.extractLsb' 0 8)
  else if x.extractLsb' 16 2 = 0b01#2 then .getAngle (x.extractLsb' 8 8) (x.extractLsb' 0 8)
  else if x.extractLsb' 16 2 = 0b10#2 then .disableAll (x.extractLsb' 0 16)
  else .init (x.extractLsb' 0 16)

/-- The decoder: total on every word of every format. -/
def decode : PortWord → Except DecodeError Instr
  | .frame f => decodeFrame f
  | .selector x => .ok (decodeSelector x)
  | .command x => .ok (decodeCommand x)
  | .resetPin x => if x = 1#1 then .ok .reset else .error .resetNotAsserted

/-- The word of an operation, from the same tables. -/
def encode : Instr → PortWord
  | .servoCmd i a c => .frame (header ++ i ++ a ++ c)
  | .hdrAccept => .selector (0b00#2 ++ header)
  | .hdrDrop b => .selector (0b00#2 ++ b)
  | .idxStore b => .selector (0b01#2 ++ b)
  | .angStore b => .selector (0b10#2 ++ b)
  | .csumFinal b => .selector (0b11#2 ++ b)
  | .setAngle i a => .command (0b00#2 ++ i ++ a)
  | .getAngle i x => .command (0b01#2 ++ i ++ x)
  | .disableAll x => .command (0b10#2 ++ x)
  | .init x => .command (0b11#2 ++ x)
  | .reset => .resetPin 1#1

/-- The word that `w` is in spec/opcode_table.json's numbering, for a row of the given number of bits, or of that number
rounded up to whole bytes with the bits above the row zero (log entry 19). -/
def tableWord (nbits w : Nat) : Option PortWord :=
  if nbits = 32 then if w < 2 ^ 32 then some (.frame (BitVec.ofNat 32 w)) else none
  else if nbits = 10 ∨ nbits = 16 then if w < 2 ^ 10 then some (.selector (BitVec.ofNat 10 w)) else none
  else if nbits = 18 ∨ nbits = 24 then if w < 2 ^ 18 then some (.command (BitVec.ofNat 18 w)) else none
  else if nbits = 1 ∨ nbits = 8 then if w < 2 then some (.resetPin (BitVec.ofNat 1 w)) else none
  else none

/-- How many bits spec/opcode_table.json gives the word's row. -/
def PortWord.nbits : PortWord → Nat
  | .frame _ => 32
  | .selector _ => 10
  | .command _ => 18
  | .resetPin _ => 1

/-- The word's bits as one number, bit 0 the least significant. -/
def PortWord.toNat : PortWord → Nat
  | .frame f => f.toNat
  | .selector x => x.toNat
  | .command x => x.toNat
  | .resetPin x => x.toNat

/-- The operation the decoder reads from a word in the table's numbering, none where it refuses. -/
def decodeTableWord (nbits w : Nat) : Option Instr :=
  match tableWord nbits w with
  | some p => (decode p).toOption
  | none => none

end Sys2Proof
end

