-- ==== Sys2Proof/Machine/Events.lean ====
section
/-!
DEFINITION. What crosses the block's boundary: the input pins of one clock cycle (30_encoding.md R52, R54), the arrivals the
environment hands over, and the output events (00_scope.md R7).
-/

namespace Sys2Proof.Machine

/-- The input pins in one clock cycle (R52, R54). -/
structure InputPins where
  /-- `rst`, active high. -/
  rst : Bool
  /-- `rx_valid`. -/
  rxValid : Bool
  /-- `rx_data[7:0]`. -/
  rxData : Byte
  /-- `cmd_valid`. -/
  cmdValid : Bool
  /-- `cmd_op[1:0]`. -/
  cmdOp : BitVec 2
  /-- `cmd_index[7:0]`. -/
  cmdIndex : Byte
  /-- `cmd_angle[7:0]`. -/
  cmdAngle : Byte
  deriving DecidableEq, Repr

/-- What the environment hands over at one time. -/
inductive Arrival where
  /-- One clock cycle of the input pins: one input event of R7, or none, or a clash (R52, R54). -/
  | cycle (pins : InputPins)
  /-- `CMD i, a, !c` of R50: the bytes `0xFF`, `i`, `a`, `c` delivered with nothing between them (log entry 3). -/
  | frame (index angle checksum : Byte)
  deriving DecidableEq, Repr

/-- The three status messages (30_encoding.md R48). -/
inductive StatusCode where
  | ok
  | errChecksum
  | errRange
  deriving DecidableEq, Repr

/-- The output events (00_scope.md R7). -/
inductive OutputEvent where
  /-- `Status(code)`. -/
  | status (code : StatusCode)
  /-- `PwmSetFrequency(hz)`. -/
  | pwmSetFrequency (hz : Nat)
  /-- `PwmSetChannelPulse(channel, on_tick, off_tick)`. -/
  | pwmSetChannelPulse (channel : Byte) (onTick offTick : Nat)
  /-- `AngleResponse(v)`. -/
  | angleResponse (v : Byte)
  deriving DecidableEq, Repr

end Sys2Proof.Machine
end

