-- ==== Sys2Proof/Machine/Operands.lean ====
section
/-!
DEFINITION. Operands and arithmetic of the actuator: the configuration tables read by servo index, trim, clamp, the conversion
of an angle to a pulse, and the lists of events that INIT and DISABLEALL send (41_actuator.md R70 to R79). The arithmetic is
exact, over the integers (00_scope.md section 6).
-/

namespace Sys2Proof.Machine

/-- `cfg.TRIM_OFFSETS[i]`. The table holds an entry for every `i < N` (R6, R83); past its end 0 is read (log entry 9). -/
def trimOf (c : Config) (i : Byte) : Int := c.trimOffsets.getD i.toNat 0

/-- `cfg.INIT_ANGLES[i]`. The table holds an entry for every `i < N` (R6, R83); past its end 0 is read (log entry 9). -/
def initAngleOf (c : Config) (i : Nat) : Byte := c.initAngles.getD i 0#8

/-- Whether a servo index selects anything (10_state.md R21). -/
def indexValid (c : Config) (i : Byte) : Bool := decide (i.toNat < c.servoCount)

/-- `clamp(x, lo, hi)` (00_scope.md section 6). -/
def clamp (x lo hi : Int) : Int := if x < lo then lo else if hi < x then hi else x

/-- `trimmed = a + cfg.TRIM_OFFSETS[i]`, an exact signed sum (R71). -/
def trimmed (c : Config) (i a : Byte) : Int := (a.toNat : Int) + trimOf c i

/-- `safe_angle = clamp(trimmed, 0, 180)` (R72). -/
def safeAngle (c : Config) (i a : Byte) : Nat := (clamp (trimmed c i a) 0 angleMax).toNat

/-- `pulse_of(s)`: the full product, one truncating division by 180, then the addition (R73). -/
def pulseOf (c : Config) (s : Nat) : Nat := c.minPulse + (s * (c.maxPulse - c.minPulse)) / 180

/-- `pulse(i, a)` (R73). -/
def pulse (c : Config) (i a : Byte) : Nat := pulseOf c (safeAngle c i a)

/-- The event of an accepted `SETANGLE(i, a)`: channel, on tick 0, off tick (R70 step 5). -/
def pulseEvent (c : Config) (i a : Byte) : OutputEvent := .pwmSetChannelPulse i 0 (pulse c i a)

/-- What DISABLEALL sends: a zero pulse to each channel, in ascending order (R78). -/
def disableEvents (c : Config) : List OutputEvent :=
  (List.range c.servoCount).map fun i => .pwmSetChannelPulse (BitVec.ofNat 8 i) 0 0

/-- What INIT sends: the frequency, then each servo's initial pulse, in ascending order (R79). -/
def initEvents (c : Config) : List OutputEvent :=
  .pwmSetFrequency c.pwmFreq ::
    (List.range c.servoCount).map fun i => pulseEvent c (BitVec.ofNat 8 i) (initAngleOf c i)

end Sys2Proof.Machine
end

