-- ==== Sys2Proof/Machine/State.lean ====
section
/-!
DEFINITION. The state of the block as plain data (10_state.md R9 to R24), the reasons a step can stop, and the state right
after RESET (R24, 70_reset_and_hazards.md R110).
-/

namespace Sys2Proof.Machine

/-- The decoder state `dstate` (R11). -/
inductive DState where
  | awaitingHeader
  | awaitingIndex
  | awaitingAngle
  | awaitingChecksum
  deriving DecidableEq, Repr

/-- The packet buffer `packet[0..3]` (R14). -/
structure Packet where
  cell0 : Byte
  cell1 : Byte
  cell2 : Byte
  cell3 : Byte
  deriving DecidableEq, Repr

/-- The block stops with no fault: "all error conditions are locally recovered" and none is a trap (60_exceptions.md R94,
40_decoder.md R69). No meaning raises one, and there is none to raise (log entry 20). -/
inductive Fault where
  deriving DecidableEq, Repr

/-- Why a step has no next state. -/
inductive Refusal where
  /-- Raised by `exec` for an operation that has no meaning yet; safe. No arm raises it. -/
  | notModelled (mnemonic : String)
  /-- Raised by `step` where the configuration breaks 00_scope.md R6: such a configuration is refused (R6, U8; log entry 16);
  safe. -/
  | invalidConfiguration
  /-- Raised by `step` for an event before the first RESET, to which the spec gives no meaning (R24, R110, U5; log entry 6);
  safe. -/
  | beforeFirstReset
  /-- Raised by `step` for a cycle that presents more than one input event (R54, D21, U13; log entry 7); safe. -/
  | simultaneousEvents
  /-- Raised by `step` for a word that decodes to no operation; safe. No arrival gives such a word. -/
  | undecodable (e : DecodeError)
  deriving DecidableEq, Repr

/-- The state: the spec's (R9), its configuration constants (R20), and the model's own fields. -/
structure State where
  /-- `cfg`, the six configuration constants, read-only (R5, R20; log entry 21). -/
  cfg : Config
  /-- `dstate` (R11 to R13). -/
  dstate : DState
  /-- `packet[0..3]` (R14 to R16). -/
  packet : Packet
  /-- `cur_angle[0..N-1]` (R17, R18). -/
  curAngle : List Byte
  /-- Whether a RESET has been processed (R110; log entry 6). -/
  started : Bool
  /-- The arrivals not yet processed, in order (R7, R8, R36; log entry 1). -/
  pending : List Arrival
  /-- The output events emitted so far, in order: the trace (00_scope.md section 6; log entry 1). -/
  trace : List OutputEvent
  /-- How many free bytes have been drawn (log entry 5). -/
  freeIx : Nat
  deriving DecidableEq, Repr

/-- The state right after RESET under the configuration `c`, with nothing more delivered (R24, R110). The packet's four
bytes are unspecified there; DESIGN CHOICE: zero (log entry 4). The trace holds what RESET emitted (log entry 22). -/
def State.resetWith (c : Config) : State where
  cfg := c
  dstate := .awaitingHeader
  packet := ⟨0#8, 0#8, 0#8, 0#8⟩
  curAngle := c.initAngles
  started := true
  pending := []
  trace := initEvents c
  freeIx := 0

/-- The state right after RESET under the configuration of log entry 2. -/
def State.reset : State := State.resetWith Config.reference

end Sys2Proof.Machine
end

