-- ==== Sys2Proof/Machine/Flags.lean ====
section
/-!
DEFINITION. The conditions of finalize. The block stores no flag (10_state.md R19): what stands in a flag's place is the
outcome of finalize, computed from the packet and reported at once (40_decoder.md R59 to R64).
-/

namespace Sys2Proof.Machine

/-- `(packet[0] + packet[1] + packet[2]) mod 256`: the exact sum, then its low 8 bits (R59, R63). -/
def checksum (p : Packet) : Byte :=
  BitVec.ofNat 8 (p.cell0.toNat + p.cell1.toNat + p.cell2.toNat)

/-- `packet[1] < cfg.SERVO_COUNT and packet[2] <= 180`, both unsigned (R61). -/
def rangeOk (c : Config) (p : Packet) : Bool :=
  indexValid c p.cell1 && decide (p.cell2.toNat ≤ angleMax)

/-- The outcome of finalize: the checksum is tested first, then the range (R59, 60_exceptions.md R97). -/
def finalOutcome (c : Config) (p : Packet) : StatusCode :=
  if checksum p = p.cell3 then
    if rangeOk c p then .ok else .errRange
  else .errChecksum

end Sys2Proof.Machine
end

