-- ==== Sys2Proof/Machine/Ops.lean ====
section
/-!
DEFINITION. The named operations over the state: emitting events, the angle array, the actuator's bodies (41_actuator.md), the
decoder's transitions and finalize (40_decoder.md), what happens on a reported error (60_exceptions.md R98), and RESET
(70_reset_and_hazards.md R110).
-/

namespace Sys2Proof.Machine

/-- `emit E` for each event of a list, in order (00_scope.md section 6). -/
def State.emit (s : State) (es : List OutputEvent) : State := { s with trace := s.trace ++ es }

/-- `cur_angle[i] <- a` (R70 step 6, R83). -/
def State.writeAngle (s : State) (i a : Byte) : State := { s with curAngle := s.curAngle.set i.toNat a }

/-- `cur_angle[i]`, read only with `i < N` (R77, R83); past the array's end 0 is read (log entry 9). -/
def State.readAngle (s : State) (i : Byte) : Byte := s.curAngle.getD i.toNat 0#8

/-- The body of `SETANGLE(i, a)` (R70): nothing for an index that selects no servo; else the pulse, then the untrimmed
angle stored. An angle above 180 is taken literally (R76; log entry 10). -/
def State.driveServo (s : State) (i a : Byte) : State :=
  if indexValid s.cfg i then (s.emit [pulseEvent s.cfg i a]).writeAngle i a else s

/-- What `GETANGLE(i)` returns: the stored angle, or the sentinel 0 (R77). -/
def State.angleOrSentinel (s : State) (i : Byte) : Byte :=
  if indexValid s.cfg i then s.readAngle i else 0#8

/-- One round of INIT's loop: `call SETANGLE(i, cfg.INIT_ANGLES[i])` (R79). -/
def State.initServo (s : State) (i : Nat) : State := s.driveServo (BitVec.ofNat 8 i) (initAngleOf s.cfg i)

/-- The body of INIT (R79): the frequency, then every servo in ascending order. -/
def State.initAll (s : State) : State :=
  (List.range s.cfg.servoCount).foldl State.initServo (s.emit [.pwmSetFrequency s.cfg.pwmFreq])

/-- The body of DISABLEALL (R78): a zero pulse to every channel in ascending order, nothing stored. -/
def State.disableOutputs (s : State) : State := s.emit (disableEvents s.cfg)

/-- HDR_ACCEPT's transition (R55). -/
def State.acceptHeader (s : State) : State :=
  { s with packet := { s.packet with cell0 := header }, dstate := .awaitingIndex }

/-- IDX_STORE's transition (R57). -/
def State.storeIndex (s : State) (b : Byte) : State :=
  { s with packet := { s.packet with cell1 := b }, dstate := .awaitingAngle }

/-- ANG_STORE's transition (R58). -/
def State.storeAngle (s : State) (b : Byte) : State :=
  { s with packet := { s.packet with cell2 := b }, dstate := .awaitingChecksum }

/-- `packet[3] <- b`, the first action of CSUM_FINAL (R59). -/
def State.storeChecksum (s : State) (b : Byte) : State :=
  { s with packet := { s.packet with cell3 := b } }

/-- `report c`, and `dstate <- AwaitingHeader` (R59, the end of all three arms). -/
def State.reportOutcome (s : State) (code : StatusCode) : State :=
  { s.emit [.status code] with dstate := .awaitingHeader }

/-- What the block does on a reported error, its whole "trap entry" (R98): the report, no actuation, back to
`AwaitingHeader`; nothing is saved and control goes nowhere. There is no return from it (R99). -/
def State.rejectFrame (s : State) (code : StatusCode) : State := s.reportOutcome code

/-- Finalize (R59 to R62), on a packet whose four cells are stored. -/
def State.finalize (s : State) : State :=
  match finalOutcome s.cfg s.packet with
  | .ok => (s.driveServo s.packet.cell1 s.packet.cell2).reportOutcome .ok
  | .errChecksum => s.rejectFrame .errChecksum
  | .errRange => s.rejectFrame .errRange

/-- CSUM_FINAL's transition (R59). -/
def State.closeFrame (s : State) (b : Byte) : State := (s.storeChecksum b).finalize

/-- `RXBYTE(b)` in whatever state the decoder is (the table of R45): what one byte of a frame does. -/
def State.receiveByte (s : State) (b : Byte) : State :=
  match s.dstate with
  | .awaitingHeader => if b = header then s.acceptHeader else s
  | .awaitingIndex => s.storeIndex b
  | .awaitingAngle => s.storeAngle b
  | .awaitingChecksum => s.closeFrame b

/-- `packet[0..3] <- unspecified` (R110): four free bytes (log entry 5). -/
def State.freePacket (s : State) : State :=
  { s with
    packet := ⟨Config.freeByte s.freeIx, Config.freeByte (s.freeIx + 1), Config.freeByte (s.freeIx + 2),
      Config.freeByte (s.freeIx + 3)⟩
    freeIx := s.freeIx + 4 }

/-- RESET (R110): the decoder to its initial state, the packet unspecified, then INIT. -/
def State.restart (s : State) : State :=
  ({ s.freePacket with dstate := .awaitingHeader, started := true } : State).initAll

end Sys2Proof.Machine
end

