-- ==== Sys2Proof/Machine/Actuator.lean ====
section
/-!
DEFINITION. The Servo Actuator's operations on the local command port (41_actuator.md).
-/

namespace Sys2Proof.Machine

/-- SETANGLE (R70 to R76). -/
def execSetAngle (index angle : Byte) (s : State) : Host.Outcome State Fault Refusal := .next (s.driveServo index angle)

/-- GETANGLE (R77): the answer is an event of the same step (00_scope.md R7, decision D26); the state is unchanged. -/
def execGetAngle (index _ignored : Byte) (s : State) : Host.Outcome State Fault Refusal :=
  .next (s.emit [.angleResponse (s.angleOrSentinel index)])

/-- DISABLEALL (R78). -/
def execDisableAll (_ignored : BitVec 16) (s : State) : Host.Outcome State Fault Refusal := .next s.disableOutputs

/-- INIT (R79). -/
def execInit (_ignored : BitVec 16) (s : State) : Host.Outcome State Fault Refusal := .next s.initAll

end Sys2Proof.Machine
end

