-- ==== Sys2Proof/Machine/Decoder.lean ====
section
/-!
DEFINITION. The Protocol Decoder's operations (40_decoder.md). A byte operation does what its row of the transition table
says; the row's decoder state is part of the operation's word (30_encoding.md R45) and `step` only runs the row that fits
(log entry 17).
-/

namespace Sys2Proof.Machine

/-- HDR_ACCEPT (R55): `packet[0] <- 0xFF`, to `AwaitingIndex`. -/
def execHdrAccept (s : State) : Host.Outcome State Fault Refusal := .next s.acceptHeader

/-- HDR_DROP (R56): the byte is dropped, nothing changes. -/
def execHdrDrop (_b : Byte) (s : State) : Host.Outcome State Fault Refusal := .next s

/-- IDX_STORE (R57): `packet[1] <- b`, to `AwaitingAngle`. -/
def execIdxStore (b : Byte) (s : State) : Host.Outcome State Fault Refusal := .next (s.storeIndex b)

/-- ANG_STORE (R58): `packet[2] <- b`, to `AwaitingChecksum`. -/
def execAngStore (b : Byte) (s : State) : Host.Outcome State Fault Refusal := .next (s.storeAngle b)

/-- CSUM_FINAL (R59 to R62): `packet[3] <- b`, finalize, to `AwaitingHeader`. -/
def execCsumFinal (b : Byte) (s : State) : Host.Outcome State Fault Refusal := .next (s.closeFrame b)

/-- SERVO_CMD (R40, R50, R65 to R67): the four `RXBYTE` events of the frame's bytes, in order, each in whatever state the
one before it leaves (log entry 3). -/
def execServoCmd (index angle checksum : Byte) (s : State) : Host.Outcome State Fault Refusal :=
  .next ((((s.receiveByte header).receiveByte index).receiveByte angle).receiveByte checksum)

end Sys2Proof.Machine
end

