-- ==== Sys2Proof/Machine/Restart.lean ====
section
/-!
DEFINITION. The RESET event (70_reset_and_hazards.md R110).
-/

namespace Sys2Proof.Machine

/-- RESET (R110): from any state the decoder awaits a header, the packet is unspecified, and INIT is performed. -/
def execReset (s : State) : Host.Outcome State Fault Refusal := .next s.restart

end Sys2Proof.Machine
end

