-- ==== Sys2Proof/Machine/Dispatch.lean ====
section
/-!
DEFINITION. One arm per operation of spec/opcode_table.json, each one call of its meaning.
-/

namespace Sys2Proof.Machine

def exec (i : Instr) (s : State) : Host.Outcome State Fault Refusal :=
  match i with
  | .servoCmd index angle checksum => Sys2Proof.Machine.execServoCmd index angle checksum s
  | .hdrAccept => Sys2Proof.Machine.execHdrAccept s
  | .hdrDrop b => Sys2Proof.Machine.execHdrDrop b s
  | .idxStore b => Sys2Proof.Machine.execIdxStore b s
  | .angStore b => Sys2Proof.Machine.execAngStore b s
  | .csumFinal b => Sys2Proof.Machine.execCsumFinal b s
  | .setAngle index angle => Sys2Proof.Machine.execSetAngle index angle s
  | .getAngle index ignored => Sys2Proof.Machine.execGetAngle index ignored s
  | .disableAll ignored => Sys2Proof.Machine.execDisableAll ignored s
  | .init ignored => Sys2Proof.Machine.execInit ignored s
  | .reset => Sys2Proof.Machine.execReset s

end Sys2Proof.Machine
end

