-- ==== Sys2Proof/Machine/Fetch.lean ====
section
/-!
DEFINITION. From what the environment hands over to a word of the operation table (30_encoding.md R45, R50, R52, R54), and
back: the arrival that presents a given word.
-/

namespace Sys2Proof.Machine

/-- The code of a decoder state: the number of frame bytes stored (R11). -/
def DState.code : DState → BitVec 2
  | .awaitingHeader => 0b00#2
  | .awaitingIndex => 0b01#2
  | .awaitingAngle => 0b10#2
  | .awaitingChecksum => 0b11#2

/-- The decoder state of a code; all four are legal (R11). -/
def DState.ofCode (x : BitVec 2) : DState :=
  if x = 0b00#2 then .awaitingHeader
  else if x = 0b01#2 then .awaitingIndex
  else if x = 0b10#2 then .awaitingAngle
  else .awaitingChecksum

/-- What one arrival presents to the block. -/
inductive Presented where
  /-- No event (R52). -/
  | nothing
  /-- More than one event at once, which the spec excludes (R54, D21). -/
  | clash
  /-- One operation's word. -/
  | word (w : PortWord)
  deriving DecidableEq, Repr

/-- The pins of an idle cycle: nothing is valid (R52). -/
def InputPins.idle : InputPins := ⟨false, false, 0#8, false, 0#2, 0#8, 0#8⟩

/-- The pins that present `RXBYTE(b)` (R52). -/
def InputPins.rx (b : Byte) : InputPins := { InputPins.idle with rxValid := true, rxData := b }

/-- The pins that present a local command (R54). -/
def InputPins.cmd (op : BitVec 2) (i a : Byte) : InputPins :=
  { InputPins.idle with cmdValid := true, cmdOp := op, cmdIndex := i, cmdAngle := a }

/-- The pins that present RESET (R52). -/
def InputPins.resetOn : InputPins := { InputPins.idle with rst := true }

/-- What a cycle of the pins presents to a decoder in state `d`: RESET, a byte with the decoder's state (R45), a local
command word (R54), nothing, or a clash of two events (log entry 7). -/
def InputPins.present (p : InputPins) (d : DState) : Presented :=
  match p.rst, p.rxValid, p.cmdValid with
  | false, false, false => .nothing
  | true, false, false => .word (.resetPin 1#1)
  | false, true, false => .word (.selector (d.code ++ p.rxData))
  | false, false, true => .word (.command (p.cmdOp ++ p.cmdIndex ++ p.cmdAngle))
  | _, _, _ => .clash

/-- What an arrival presents to a decoder in state `d`; a frame's word has the header in its high bits (R40). -/
def Arrival.present (x : Arrival) (d : DState) : Presented :=
  match x with
  | .cycle p => p.present d
  | .frame i a c => .word (.frame (header ++ i ++ a ++ c))

/-- `RXBYTE(b)` as an arrival. -/
def Arrival.rx (b : Byte) : Arrival := .cycle (.rx b)

/-- The decoder state a word must meet to be the next operation: a selector names it, the other formats take any. -/
def wordDState (w : PortWord) (d : DState) : DState :=
  match w with
  | .selector x => .ofCode (x.extractLsb' 8 2)
  | .frame _ => d
  | .command _ => d
  | .resetPin _ => d

/-- The arrival that presents a word: none for a 32-bit word that is no frame and for the reset pin at 0. -/
def wordArrival : PortWord → Option Arrival
  | .frame f =>
    if f.extractLsb' 24 8 = header then
      some (.frame (f.extractLsb' 16 8) (f.extractLsb' 8 8) (f.extractLsb' 0 8))
    else none
  | .selector x => some (.rx (x.extractLsb' 0 8))
  | .command x => some (.cycle (.cmd (x.extractLsb' 16 2) (x.extractLsb' 8 8) (x.extractLsb' 0 8)))
  | .resetPin x => if x = 1#1 then some (.cycle .resetOn) else none

/-- The state with a word's arrival put before all others, and the decoder in the state the word names. -/
def State.placeWord (s : State) (w : PortWord) : State :=
  match wordArrival w with
  | some x => { s with dstate := wordDState w s.dstate, pending := x :: s.pending }
  | none => s

end Sys2Proof.Machine
end

