-- ==== Sys2Proof/Machine/Step.lean ====
section
/-!
DEFINITION. One step: the next arrival is taken, the word it presents is decoded, and the operation runs to completion
(00_scope.md R7, 20_memory.md R32, R36).
-/

namespace Sys2Proof.Machine

/-- The step on an operation already decoded: before the first RESET only RESET has a meaning (R24, R110; log entry 6). -/
def runInstr (i : Instr) (s : State) : Host.Outcome State Fault Refusal :=
  if s.started = true ∨ i = .reset then exec i s else .refused .beforeFirstReset

/-- The step on what an arrival presents, the arrival being taken off the list already. -/
def runPresented (p : Presented) (s : State) : Host.Outcome State Fault Refusal :=
  match p with
  | .nothing => .next s
  | .clash => .refused .simultaneousEvents
  | .word w =>
    match decode w with
    | .ok i => runInstr i s
    | .error e => .refused (.undecodable e)

/-- One step. With nothing delivered the block waits, unchanged (R113; log entry 1). -/
def step (s : State) : Host.Outcome State Fault Refusal :=
  if s.cfg.Valid then
    match s.pending with
    | [] => .next s
    | x :: rest => runPresented (x.present s.dstate) { s with pending := rest }
  else .refused .invalidConfiguration

/-- `s` with the operation whose table word is `w` placed as the very next arrival, the decoder being in the state a selector
names (log entry 1). -/
def State.withFetchWord (s : State) (nbits w : Nat) : State :=
  match tableWord nbits w with
  | some p => s.placeWord p
  | none => s

end Sys2Proof.Machine
end

