-- ==== Sys2Proof/Machine/Ports.lean ====
section
/-!
DEFINITION. What an output event is on the block's output ports (30_encoding.md R53) and what a status code is as a line of
text (R48, R49). Nothing here changes the state: these are views of the events a step emits.
-/

namespace Sys2Proof.Machine

/-- The 2-bit status code (R48). -/
def StatusCode.code : StatusCode → BitVec 2
  | .ok => 0b00#2
  | .errChecksum => 0b01#2
  | .errRange => 0b10#2

/-- The ASCII text of a status code, first character first (R49). -/
def StatusCode.text : StatusCode → List Byte
  | .ok => [0x4F#8, 0x4B#8]
  | .errChecksum =>
    [0x45#8, 0x52#8, 0x52#8, 0x3A#8, 0x20#8, 0x43#8, 0x68#8, 0x65#8, 0x63#8, 0x6B#8, 0x73#8] ++
    [0x75#8, 0x6D#8, 0x20#8, 0x6D#8, 0x69#8, 0x73#8, 0x6D#8, 0x61#8, 0x74#8, 0x63#8, 0x68#8]
  | .errRange =>
    [0x45#8, 0x52#8, 0x52#8, 0x3A#8, 0x20#8, 0x49#8, 0x6E#8, 0x76#8, 0x61#8, 0x6C#8, 0x69#8, 0x64#8] ++
    [0x20#8, 0x64#8, 0x61#8, 0x74#8, 0x61#8, 0x20#8, 0x72#8, 0x61#8, 0x6E#8, 0x67#8, 0x65#8]

/-- The line the status sink makes of a code; its terminator is the open parameter `STATUS_EOL` (R49). -/
def StatusCode.line (k : StatusCode) : List Byte := k.text ++ Config.statusEol

/-- The PWM port in a cycle with `pwm_valid = 1` (R53). -/
inductive PwmPort where
  /-- `pwm_op = 0`: `pwm_channel`, `pwm_on`, `pwm_off`. -/
  | setChannelPulse (channel : Byte) (on off : BitVec 12)
  /-- `pwm_op = 1`: `pwm_hz`. -/
  | setFrequency (hz : BitVec 16)
  deriving DecidableEq, Repr

/-- `pwm_op` (R53). -/
def PwmPort.op : PwmPort → BitVec 1
  | .setChannelPulse _ _ _ => 0#1
  | .setFrequency _ => 1#1

/-- The output pins in one cycle (R52, R53); a port that is `none` has its valid pin at 0. -/
structure OutputPins where
  busy : Bool
  status : Option (BitVec 2)
  pwm : Option PwmPort
  response : Option Byte
  deriving DecidableEq, Repr

/-- The cycle that carries one output event (R53); a number wider than its pins shows its low bits (log entry 23). -/
def OutputEvent.pins (busy : Bool) : OutputEvent → OutputPins
  | .status k => ⟨busy, some k.code, none, none⟩
  | .pwmSetFrequency hz => ⟨busy, none, some (.setFrequency (BitVec.ofNat 16 hz)), none⟩
  | .pwmSetChannelPulse ch on off =>
    ⟨busy, none, some (.setChannelPulse ch (BitVec.ofNat 12 on) (BitVec.ofNat 12 off)), none⟩
  | .angleResponse v => ⟨busy, none, none, some v⟩

/-- The cycles that carry a step's output list, one per event in order (R53). `busy` is up while a list of more than one event
is still being emitted (R52); DEDUCED: the last event's cycle included (log entry 15). -/
def portCycles (es : List OutputEvent) : List OutputPins := es.map (OutputEvent.pins (decide (2 ≤ es.length)))

end Sys2Proof.Machine
end

