-- ==== Sys2Proof/Safety.lean ====
section
/-!
DEFINITION. The terms the statements use: which output events are safe (41_actuator.md R75, R81), the invariants of the state
(10_state.md R16 to R18), and what is read off a trace (R19, R23).
-/

namespace Sys2Proof

/-- An operation that keeps the range of the stored angles: any but a direct SETANGLE above 180 (R18, R76). -/
def Instr.angleChecked : Instr → Prop
  | .setAngle _ a => a.toNat ≤ angleMax
  | _ => True

/-- How many finalizes an operation performs: one for CSUM_FINAL and for a whole frame, none for any other (R69). -/
def Instr.finalizes : Instr → Nat
  | .csumFinal _ => 1
  | .servoCmd _ _ _ => 1
  | _ => 0

/-- The local operations: they leave the decoder alone (10_state.md R13, R14). -/
def Instr.isLocal : Instr → Bool
  | .setAngle _ _ => true
  | .getAngle _ _ => true
  | .disableAll _ => true
  | .init _ => true
  | _ => false

end Sys2Proof

namespace Sys2Proof.Machine

/-- An output event the block may emit (R75, R81): a channel below `N`, on tick 0, off tick 0 or between the pulse bounds; the
configured frequency; any status and any answer. -/
def EventSafe (c : Config) : OutputEvent → Prop
  | .pwmSetChannelPulse ch on off =>
    ch.toNat < c.servoCount ∧ on = 0 ∧ (off = 0 ∨ (c.minPulse ≤ off ∧ off ≤ c.maxPulse))
  | .pwmSetFrequency hz => hz = c.pwmFreq
  | .status _ => True
  | .angleResponse _ => True

/-- The invariant of every run: the configuration is one the spec admits (R6), the angle array has its `N` cells (R17), a frame
being assembled begins with the header (R16), and every event emitted so far is safe (R75, R81). -/
structure Inv (s : State) : Prop where
  cfgValid : s.cfg.Valid
  anglesLength : s.curAngle.length = s.cfg.servoCount
  headerStored : s.dstate ≠ .awaitingHeader → s.packet.cell0 = header
  eventsSafe : ∀ e ∈ s.trace, EventSafe s.cfg e

/-- The range part of the stored angles' invariant (R18). -/
def AnglesInRange (s : State) : Prop := ∀ a ∈ s.curAngle, a.toNat ≤ angleMax

/-- A status event. -/
def OutputEvent.isStatus : OutputEvent → Bool
  | .status _ => true
  | .pwmSetFrequency _ => false
  | .pwmSetChannelPulse _ _ _ => false
  | .angleResponse _ => false

/-- How many status events a trace holds (R69). -/
def statusCount (es : List OutputEvent) : Nat := es.countP OutputEvent.isStatus

/-- What one event leaves in the register of channel `ch`, `old` before it. -/
def channelAfter (ch : Byte) (old : Option Nat) : OutputEvent → Option Nat
  | .pwmSetChannelPulse c _ off => if c = ch then some off else old
  | _ => old

/-- The off tick of the last pulse sent to a channel, none where there was none (R23). -/
def channelOffTick (ch : Byte) (es : List OutputEvent) : Option Nat := es.foldl (channelAfter ch) none

/-- `k` steps one after another, stopping where a step has no next state. -/
def runSteps : Nat → State → Host.Outcome State Fault Refusal
  | 0, s => .next s
  | k + 1, s =>
    match step s with
    | .next t => runSteps k t
    | .fault r => .fault r
    | .refused r => .refused r

/-- The four byte events of one frame, as arrivals (R50). -/
def frameBytes (i a c : Byte) : List Arrival := [.rx header, .rx i, .rx a, .rx c]

/-- The servo a whole frame's bytes would drive, by the state they meet: the frame's own index where they open a window, the
index already stored where they finish one (R29, R66); in `AwaitingIndex` the frame's header is taken as the index. -/
def frameTarget (s : State) (index : Byte) : Byte :=
  match s.dstate with
  | .awaitingHeader => index
  | .awaitingIndex => header
  | .awaitingAngle => s.packet.cell1
  | .awaitingChecksum => s.packet.cell1

/-- Two states that differ at most in buffer cells not yet filled by the frame in progress (R15). -/
def SameButUnfilled (s t : State) : Prop :=
  s.cfg = t.cfg ∧ s.dstate = t.dstate ∧ s.curAngle = t.curAngle ∧ s.started = t.started ∧
  s.pending = t.pending ∧ s.trace = t.trace ∧ s.freeIx = t.freeIx ∧
  (s.dstate ≠ .awaitingHeader → s.packet.cell0 = t.packet.cell0) ∧
  (s.dstate = .awaitingAngle ∨ s.dstate = .awaitingChecksum → s.packet.cell1 = t.packet.cell1) ∧
  (s.dstate = .awaitingChecksum → s.packet.cell2 = t.packet.cell2)

end Sys2Proof.Machine
end

