-- ==== Sys2Proof/Certificates/Slice0/Obligations.lean ====
section
/-!
DEFINITION. The statements for the provers. A docstring names the rule of spec/ a statement formalises; where a clause rests
on a decision the spec marks as its own, the docstring names that decision.
-/

open Sys2Proof Sys2Proof.Machine

/-! ### The decoder's byte operations -/

/-- R55: in `AwaitingHeader`, HDR_ACCEPT stores 0xFF as `packet[0]` and goes to `AwaitingIndex`; nothing else changes. -/
def Obligations.HdrAcceptOpensAFrame : Prop :=
  ∀ s : State, s.dstate = .awaitingHeader →
    exec .hdrAccept s =
      .next { s with packet := { s.packet with cell0 := 0xFF#8 }, dstate := .awaitingIndex }

/-- R56: in `AwaitingHeader`, HDR_DROP of any byte but 0xFF changes nothing at all. -/
def Obligations.HdrDropChangesNothing : Prop :=
  ∀ (s : State) (b : Byte), s.dstate = .awaitingHeader → b ≠ 0xFF#8 → exec (.hdrDrop b) s = .next s

/-- R57: in `AwaitingIndex`, IDX_STORE stores any byte as `packet[1]` and goes to `AwaitingAngle`; nothing else changes. -/
def Obligations.IdxStoreWritesCellOne : Prop :=
  ∀ (s : State) (b : Byte), s.dstate = .awaitingIndex →
    exec (.idxStore b) s =
      .next { s with packet := { s.packet with cell1 := b }, dstate := .awaitingAngle }

/-- R58: in `AwaitingAngle`, ANG_STORE stores any byte as `packet[2]` and goes to `AwaitingChecksum`; nothing else changes. -/
def Obligations.AngStoreWritesCellTwo : Prop :=
  ∀ (s : State) (b : Byte), s.dstate = .awaitingAngle →
    exec (.angStore b) s =
      .next { s with packet := { s.packet with cell2 := b }, dstate := .awaitingChecksum }

/-- R60: in `AwaitingChecksum`, a byte other than the low 8 bits of the sum of the first three gives `ERR_CHECKSUM` and no
actuation, whatever the index and the angle; nothing else changes. -/
def Obligations.CsumFinalRejectsBadChecksum : Prop :=
  ∀ (s : State) (b : Byte), s.dstate = .awaitingChecksum →
    (s.packet.cell0.toNat + s.packet.cell1.toNat + s.packet.cell2.toNat) % 256 ≠ b.toNat →
    exec (.csumFinal b) s =
      .next { s with
        packet := { s.packet with cell3 := b }
        dstate := .awaitingHeader
        trace := s.trace ++ [.status .errChecksum] }

/-- R61: in `AwaitingChecksum`, with a right checksum, an index not below `N` or an angle above 180 gives `ERR_RANGE` and no
actuation; nothing else changes. -/
def Obligations.CsumFinalRejectsBadRange : Prop :=
  ∀ (s : State) (b : Byte), s.dstate = .awaitingChecksum →
    (s.packet.cell0.toNat + s.packet.cell1.toNat + s.packet.cell2.toNat) % 256 = b.toNat →
    (s.cfg.servoCount ≤ s.packet.cell1.toNat ∨ 180 < s.packet.cell2.toNat) →
    exec (.csumFinal b) s =
      .next { s with
        packet := { s.packet with cell3 := b }
        dstate := .awaitingHeader
        trace := s.trace ++ [.status .errRange] }

/-- 40_decoder.md section 2, the success arm: the servo is driven, the angle stored, `OK` reported. The order of the two events
is the spec's decision D18 (log entry 11); outside `AwaitingChecksum`, where no step runs the operation, the claim is log
entry 17. -/
def Obligations.CsumFinalDrivesTheServo : Prop :=
  ∀ (s : State) (b : Byte),
    (s.packet.cell0.toNat + s.packet.cell1.toNat + s.packet.cell2.toNat) % 256 = b.toNat →
    s.packet.cell1.toNat < s.cfg.servoCount → s.packet.cell2.toNat ≤ 180 →
    exec (.csumFinal b) s =
      .next { s with
        packet := { s.packet with cell3 := b }
        dstate := .awaitingHeader
        curAngle := s.curAngle.set s.packet.cell1.toNat s.packet.cell2
        trace := s.trace ++
          [.pwmSetChannelPulse s.packet.cell1 0 (pulse s.cfg s.packet.cell1 s.packet.cell2), .status .ok] }

/-- 40_decoder.md section 1: CSUM_FINAL always completes, in `AwaitingHeader`, with exactly one status; begun outside
`AwaitingChecksum`, where no step runs it, that is log entry 17. -/
def Obligations.CsumFinalAlwaysReportsOnce : Prop :=
  ∀ (s : State) (b : Byte), ∃ t, exec (.csumFinal b) s = .next t ∧ t.dstate = .awaitingHeader ∧
    t.packet = { s.packet with cell3 := b } ∧ statusCount t.trace = statusCount s.trace + 1

/-- A byte operation does not read the decoder's state, so that the rules stated above for the row's own state hold of `exec` in
every other one, and HDR_DROP's of the byte 0xFF, where no step runs the operation. This is the model's choice (log entry 17),
not a rule of the spec. -/
def Obligations.ByteOperationsDoNotReadTheDecoderState : Prop :=
  ∀ (s : State) (d : DState) (b : Byte),
    exec .hdrAccept { s with dstate := d } = exec .hdrAccept s ∧
    exec (.hdrDrop b) { s with dstate := d } = .next { s with dstate := d } ∧
    exec (.idxStore b) { s with dstate := d } = exec (.idxStore b) s ∧
    exec (.angStore b) { s with dstate := d } = exec (.angStore b) s ∧
    exec (.csumFinal b) { s with dstate := d } = exec (.csumFinal b) s

/-- 40_decoder.md section 3: the exact sum reduced mod 256 is what an 8-bit wrapping adder gives. -/
def Obligations.ChecksumIsAWrappingSum : Prop :=
  ∀ p : Packet, checksum p = p.cell0 + p.cell1 + p.cell2 ∧
    (checksum p).toNat = (p.cell0.toNat + p.cell1.toNat + p.cell2.toNat) % 256

/-- 30_encoding.md section 3 and the transition table of 40_decoder.md: on a byte, the decoder's state and, in `AwaitingHeader`
alone, the byte's value choose the operation that the step runs. -/
def Obligations.ByteSelectsItsOperation : Prop :=
  ∀ (s : State) (b : Byte) (rest : List Arrival),
    s.cfg.Valid → s.started = true → s.pending = .rx b :: rest →
    step s = match s.dstate with
      | .awaitingHeader =>
        if b = 0xFF#8 then exec .hdrAccept { s with pending := rest }
        else exec (.hdrDrop b) { s with pending := rest }
      | .awaitingIndex => exec (.idxStore b) { s with pending := rest }
      | .awaitingAngle => exec (.angStore b) { s with pending := rest }
      | .awaitingChecksum => exec (.csumFinal b) { s with pending := rest }

/-! ### Whole frames -/

/-- 40_decoder.md section 4: a valid frame that meets `AwaitingHeader` drives its servo once and reports `OK`; every other angle
is unchanged. The order of the two events is the spec's decision D18 (log entry 11); running a frame as one step is log
entry 3. -/
def Obligations.ValidFrameDrivesItsServo : Prop :=
  ∀ (s : State) (i a c : Byte), s.dstate = .awaitingHeader →
    c.toNat = (255 + i.toNat + a.toNat) % 256 → i.toNat < s.cfg.servoCount → a.toNat ≤ 180 →
    exec (.servoCmd i a c) s =
      .next { s with
        packet := ⟨0xFF#8, i, a, c⟩
        curAngle := s.curAngle.set i.toNat a
        trace := s.trace ++ [.pwmSetChannelPulse i 0 (pulse s.cfg i a), .status .ok] }

/-- 40_decoder.md section 4: a frame with a wrong checksum that meets `AwaitingHeader` gives `ERR_CHECKSUM` and nothing else.
Running a frame as one step is log entry 3. -/
def Obligations.BadChecksumFrameIsReported : Prop :=
  ∀ (s : State) (i a c : Byte), s.dstate = .awaitingHeader →
    c.toNat ≠ (255 + i.toNat + a.toNat) % 256 →
    exec (.servoCmd i a c) s =
      .next { s with packet := ⟨0xFF#8, i, a, c⟩, trace := s.trace ++ [.status .errChecksum] }

/-- 40_decoder.md section 4: a frame with a right checksum and a field out of range that meets `AwaitingHeader` gives `ERR_RANGE`
and nothing else. Running a frame as one step is log entry 3. -/
def Obligations.OutOfRangeFrameIsReported : Prop :=
  ∀ (s : State) (i a c : Byte), s.dstate = .awaitingHeader →
    c.toNat = (255 + i.toNat + a.toNat) % 256 → (s.cfg.servoCount ≤ i.toNat ∨ 180 < a.toNat) →
    exec (.servoCmd i a c) s =
      .next { s with packet := ⟨0xFF#8, i, a, c⟩, trace := s.trace ++ [.status .errRange] }

/-- 30_encoding.md section 6 and 40_decoder.md section 4: in every decoder state, a frame handed over whole does in one step
exactly what its four bytes do in four (log entry 3). -/
def Obligations.WholeFrameIsFourByteSteps : Prop :=
  ∀ (s : State) (i a c : Byte) (rest : List Arrival), s.cfg.Valid → s.started = true →
    step { s with pending := .frame i a c :: rest } =
      runSteps 4 { s with pending := frameBytes i a c ++ rest }

/-- 40_decoder.md section 4, resynchronisation: any run of bytes none of which is 0xFF that meets `AwaitingHeader` leaves the
state unchanged and emits nothing. -/
def Obligations.NoiseIsDroppedWithoutTrace : Prop :=
  ∀ (s : State) (bs : List Byte) (rest : List Arrival), s.cfg.Valid → s.started = true →
    s.dstate = .awaitingHeader → (∀ b ∈ bs, b ≠ 0xFF#8) →
    runSteps bs.length { s with pending := bs.map .rx ++ rest } =
      .next { s with pending := rest }

/-- 70_reset_and_hazards.md section 4: from any decoder state, three bytes none of which is 0xFF leave the decoder in
`AwaitingHeader`. -/
def Obligations.ThreeBytesResynchronise : Prop :=
  ∀ (s : State) (b1 b2 b3 : Byte) (rest : List Arrival), s.cfg.Valid → s.started = true →
    b1 ≠ 0xFF#8 → b2 ≠ 0xFF#8 → b3 ≠ 0xFF#8 →
    ∃ t : State, runSteps 3 { s with pending := .rx b1 :: .rx b2 :: .rx b3 :: rest } = .next t ∧
      t.dstate = .awaitingHeader ∧ t.pending = rest

/-- 40_decoder.md section 5: every operation adds exactly as many status events as it performs finalizes, and a frame handed
over whole performs exactly one whatever state it meets. That such a frame is one operation, in any decoder state, is log entry
3; a CSUM_FINAL outside `AwaitingChecksum` is log entry 17. -/
def Obligations.StatusEventsCountFinalizes : Prop :=
  ∀ (i : Instr) (s t : State), exec i s = .next t → statusCount t.trace = statusCount s.trace + i.finalizes

/-! ### The actuator -/

/-- 41_actuator.md section 1, the six steps: exact trim, clamp, conversion, one event, the untrimmed angle stored; nothing else
changes. The rounding is the spec's decision D13 (log entry 11); an angle above 180 is stored as given by decision D12 (log
entry 10). -/
def Obligations.SetAngleRunsTheSixSteps : Prop :=
  ∀ (s : State) (i a : Byte) (trim : Int) (safe : Nat), i.toNat < s.cfg.servoCount →
    s.cfg.trimOffsets[i.toNat]? = some trim →
    (safe : Int) = max 0 (min 180 ((a.toNat : Int) + trim)) →
    exec (.setAngle i a) s =
      .next { s with
        curAngle := s.curAngle.set i.toNat a
        trace := s.trace ++
          [.pwmSetChannelPulse i 0 (s.cfg.minPulse + safe * (s.cfg.maxPulse - s.cfg.minPulse) / 180)] }

/-- R93: on the direct path an index not below `N` is silently ignored by SETANGLE; the sibling case of GETANGLE answers 0. -/
def Obligations.BadIndexIsSilentlyIgnored : Prop :=
  ∀ (s : State) (i a : Byte), s.cfg.servoCount ≤ i.toNat →
    exec (.setAngle i a) s = .next s ∧
    exec (.getAngle i a) s = .next { s with trace := s.trace ++ [.angleResponse 0#8] }

/-- R72: `safe_angle` is 0 below 0, 180 above 180, else the trimmed angle, for any trim table; the pulse is computed from it
alone. -/
def Obligations.SafetyClampBoundsAnyTrim : Prop :=
  ∀ (c : Config) (i a : Byte),
    (trimmed c i a < 0 → safeAngle c i a = 0) ∧
    (180 < trimmed c i a → safeAngle c i a = 180) ∧
    (0 ≤ trimmed c i a → trimmed c i a ≤ 180 → (safeAngle c i a : Int) = trimmed c i a) ∧
    safeAngle c i a ≤ 180 ∧ pulse c i a = pulseOf c (safeAngle c i a)

/-- 41_actuator.md section 1, properties of the pulse: under an admitted configuration it lies between the bounds, whatever the
angle and the trim. The rounding is the spec's decision D13. -/
def Obligations.PulseStaysBetweenItsBounds : Prop :=
  ∀ (c : Config) (i a : Byte), c.Valid →
    c.minPulse ≤ pulse c i a ∧ pulse c i a ≤ c.maxPulse ∧ pulse c i a ≤ 4095

/-- 41_actuator.md section 1: both endpoints are exact, the conversion never decreases, and it is the exact ratio rounded down.
The rounding is the spec's decision D13. -/
def Obligations.ConversionIsMonotoneAndExactAtEnds : Prop :=
  ∀ (c : Config), c.minPulse ≤ c.maxPulse →
    pulseOf c 0 = c.minPulse ∧ pulseOf c 180 = c.maxPulse ∧
    (∀ x y : Nat, x ≤ y → pulseOf c x ≤ pulseOf c y) ∧
    (∀ x : Nat, 180 * (pulseOf c x - c.minPulse) ≤ x * (c.maxPulse - c.minPulse) ∧
      x * (c.maxPulse - c.minPulse) < 180 * (pulseOf c x - c.minPulse + 1))

/-- 41_actuator.md section 1, the widths (decision D14): under an admitted configuration the trimmed angle fits 10 bits signed,
the product 20 bits, the quotient 12 bits. -/
def Obligations.ActuatorWidthsSuffice : Prop :=
  ∀ (c : Config) (i a : Byte), c.Valid → i.toNat < c.servoCount →
    (-128 ≤ trimmed c i a ∧ trimmed c i a ≤ 382) ∧
    safeAngle c i a * (c.maxPulse - c.minPulse) ≤ 737100 ∧ 737100 < 2 ^ 20 ∧
    safeAngle c i a * (c.maxPulse - c.minPulse) / 180 ≤ 4095

/-- 41_actuator.md section 5, idempotence: a second SETANGLE with the same arguments emits the same events again and changes
nothing else. The pulse's rounding is the spec's decision D13 (log entry 11). -/
def Obligations.RepeatedSetAngleRepeatsItsEvent : Prop :=
  ∀ (s : State) (i a : Byte), ∃ (t : State) (es : List OutputEvent), exec (.setAngle i a) s = .next t ∧
    t.trace = s.trace ++ es ∧ exec (.setAngle i a) t = .next { t with trace := t.trace ++ es } ∧
    (i.toNat < s.cfg.servoCount → es = [.pwmSetChannelPulse i 0 (pulse s.cfg i a)])

/-- R77: GETANGLE answers the stored angle below `N` and 0 elsewhere; the ignored field has no effect and nothing else
changes. -/
def Obligations.GetAngleAnswersStoredAngle : Prop :=
  ∀ (s : State) (i x v : Byte),
    (i.toNat < s.cfg.servoCount → s.curAngle[i.toNat]? = some v →
      exec (.getAngle i x) s = .next { s with trace := s.trace ++ [.angleResponse v] }) ∧
    (s.cfg.servoCount ≤ i.toNat →
      exec (.getAngle i x) s = .next { s with trace := s.trace ++ [.angleResponse 0#8] })

/-- 41_actuator.md section 3: DISABLEALL sends exactly one zero pulse to each channel below `N` and stores nothing. The triple
and the ascending order are the spec's decisions D15 and D16 (log entry 11). -/
def Obligations.DisableAllSendsZeroPulses : Prop :=
  ∀ (s : State) (x : BitVec 16), exec (.disableAll x) s =
    .next { s with trace := s.trace ++
      (List.range s.cfg.servoCount).map fun i => .pwmSetChannelPulse (BitVec.ofNat 8 i) 0 0 }

/-- 41_actuator.md section 3 and 10_state.md section 8: after DISABLEALL the last pulse of every channel below `N` is 0, and a
channel that is no servo's is as before. That the zero pulse has the off tick 0 is the spec's decision D16 (log entry 11). -/
def Obligations.DisableAllDeenergisesEveryChannel : Prop :=
  ∀ (s : State) (x : BitVec 16) (ch : Byte), s.cfg.Valid → ∃ t, exec (.disableAll x) s = .next t ∧
    t.curAngle = s.curAngle ∧
    (ch.toNat < s.cfg.servoCount → channelOffTick ch t.trace = some 0) ∧
    (s.cfg.servoCount ≤ ch.toNat → channelOffTick ch t.trace = channelOffTick ch s.trace)

/-- 60_exceptions.md section 10: after DISABLEALL an accepted SETANGLE drives its channel again, and only that one. The pulse's
rounding is the spec's decision D13 (log entry 11). -/
def Obligations.SetAngleReenergisesItsChannel : Prop :=
  ∀ (s : State) (x : BitVec 16) (i a : Byte), s.cfg.Valid → i.toNat < s.cfg.servoCount →
    ∃ t u, exec (.disableAll x) s = .next t ∧ exec (.setAngle i a) t = .next u ∧
      channelOffTick i u.trace = some (pulse s.cfg i a) ∧
      ∀ ch : Byte, ch ≠ i → channelOffTick ch u.trace = channelOffTick ch t.trace

/-- 41_actuator.md section 4: INIT sends the frequency, then each servo's initial pulse, and stores the initial angles; nothing
else changes. The ascending order and the pulse's rounding are the spec's decisions D15 and D13 (log entry 11). -/
def Obligations.InitDrivesEveryServo : Prop :=
  ∀ (s : State) (x : BitVec 16), s.cfg.Valid → s.curAngle.length = s.cfg.servoCount →
    exec (.init x) s =
      .next { s with
        curAngle := s.cfg.initAngles
        trace := s.trace ++ .pwmSetFrequency s.cfg.pwmFreq ::
          (List.range s.cfg.servoCount).map fun i =>
            .pwmSetChannelPulse (BitVec.ofNat 8 i) 0 (pulse s.cfg (BitVec.ofNat 8 i) (s.cfg.initAngles.getD i 0#8)) }

/-- The property the source gives of `init()` (95_test_vectors.md S8): GETANGLE after INIT answers each servo's initial angle. -/
def Obligations.GetAngleAfterInit : Prop :=
  ∀ (s : State) (x : BitVec 16) (i y v : Byte), s.cfg.Valid → s.curAngle.length = s.cfg.servoCount →
    s.cfg.initAngles[i.toNat]? = some v →
    ∃ t, exec (.init x) s = .next t ∧
      exec (.getAngle i y) t = .next { t with trace := t.trace ++ [.angleResponse v] }

/-! ### Reset -/

/-- 70_reset_and_hazards.md section 1 (decisions D4, D6; for INIT's events D13, D15, log entry 11): RESET leaves
the decoder awaiting a header, the initial angles stored and INIT's events emitted; the packet is four free bytes (log entry 5),
of which nothing is said; nothing else changes. -/
def Obligations.ResetRestartsTheBlock : Prop :=
  ∀ s : State, s.cfg.Valid → s.curAngle.length = s.cfg.servoCount →
    ∃ t, exec .reset s = .next t ∧ t.cfg = s.cfg ∧ t.dstate = .awaitingHeader ∧
      t.curAngle = s.cfg.initAngles ∧ t.trace = s.trace ++ initEvents s.cfg ∧
      t.started = true ∧ t.pending = s.pending

/-- 70_reset_and_hazards.md section 1: RESET has the same effect whatever the state before it; only the configuration (and the
trace and the arrivals, which are not the block's) survives. The packet is free and left aside (log entry 5). -/
def Obligations.ResetForgetsThePast : Prop :=
  ∀ s s' : State, s.cfg.Valid → s'.cfg = s.cfg →
    s.curAngle.length = s.cfg.servoCount → s'.curAngle.length = s.cfg.servoCount →
    ∃ t t' es, exec .reset s = .next t ∧ exec .reset s' = .next t' ∧
      t'.cfg = t.cfg ∧ t'.dstate = t.dstate ∧ t'.curAngle = t.curAngle ∧ t'.started = t.started ∧
      t.trace = s.trace ++ es ∧ t'.trace = s'.trace ++ es

/-- 10_state.md section 9 (decision D4): the state after RESET under any configuration; the machine's own reset state is that of
an admitted configuration with the default of six servos (log entry 2). That the trace holds what RESET emits, INIT's events
(70_reset_and_hazards.md section 1), is log entry 22, and that no arrival is pending is log entry 1: both are the model's. The
packet is the model's choice and left aside (log entry 4). -/
def Obligations.ResetStateAwaitsAHeader : Prop :=
  (∀ c : Config, (State.resetWith c).dstate = .awaitingHeader ∧ (State.resetWith c).curAngle = c.initAngles ∧
    (State.resetWith c).cfg = c ∧ (State.resetWith c).trace = initEvents c ∧ (State.resetWith c).pending = []) ∧
  ∃ c : Config, c.Valid ∧ c.servoCount = 6 ∧ Sys2Proof.Machine.State.reset = State.resetWith c

/-! ### What an operation leaves unchanged -/

/-- The frame of the operations that can finalize (40_decoder.md sections 1, 2 and 4): the configuration, the arrivals and the
model's counters stand; past events stand; no stored angle changes but the one of the window's index. That SERVO_CMD
is one operation, in whatever decoder state, is log entry 3; a CSUM_FINAL outside `AwaitingChecksum` is log entry 17. -/
def Obligations.FinalizingOperationsFrame : Prop :=
  ∀ (s t : State) (i a b : Byte) (target : Byte),
    (exec (.csumFinal b) s = .next t ∧ target = s.packet.cell1) ∨
    (exec (.servoCmd i a b) s = .next t ∧ target = frameTarget s i) →
    t.cfg = s.cfg ∧ t.started = s.started ∧ t.pending = s.pending ∧ t.freeIx = s.freeIx ∧
    s.trace <+: t.trace ∧ ∀ j : Nat, j ≠ target.toNat → t.curAngle[j]? = s.curAngle[j]?

/-- The frame of the local operations (10_state.md R13, R14, 70_reset_and_hazards.md section 4): the decoder's state and buffer,
the configuration, the arrivals and the counters stand; past events stand; GETANGLE and DISABLEALL store nothing, SETANGLE
stores to its own cell alone, INIT to cells below `N` alone. -/
def Obligations.LocalOperationsFrame : Prop :=
  ∀ (i : Instr) (s t : State), i.isLocal = true → exec i s = .next t →
    t.dstate = s.dstate ∧ t.packet = s.packet ∧ t.cfg = s.cfg ∧ t.started = s.started ∧ t.pending = s.pending ∧
    t.freeIx = s.freeIx ∧ s.trace <+: t.trace ∧ t.curAngle.length = s.curAngle.length ∧
    (∀ idx x, i = .getAngle idx x → t.curAngle = s.curAngle) ∧
    (∀ x, i = .disableAll x → t.curAngle = s.curAngle) ∧
    (∀ idx a, i = .setAngle idx a → ∀ j : Nat, j ≠ idx.toNat → t.curAngle[j]? = s.curAngle[j]?) ∧
    (∀ x, i = .init x → ∀ j : Nat, s.cfg.servoCount ≤ j → t.curAngle[j]? = s.curAngle[j]?)

/-- 00_scope.md section 4 and 10_state.md section 6: no step writes the configuration, and no step takes back an event. -/
def Obligations.ConfigurationIsNeverWritten : Prop :=
  ∀ s t : State, step s = .next t → t.cfg = s.cfg ∧ s.trace <+: t.trace

/-! ### Invariants -/

/-- 10_state.md R16, R17, 41_actuator.md section 5: every step keeps the invariant: an admitted configuration, `N` stored
angles, the header in `packet[0]` of a frame in progress, every event emitted a safe one. That the
emitted events stand in the state is log entry 1. -/
def Obligations.EveryStepKeepsTheInvariant : Prop :=
  ∀ s t : State, Inv s → step s = .next t → Inv t

/-- The invariant holds right after reset, under every admitted configuration and in the machine's own reset state (log
entry 2); the events it speaks of are those of log entry 22. -/
def Obligations.InvariantHoldsAfterReset : Prop :=
  (∀ c : Config, c.Valid → Inv (State.resetWith c)) ∧ Inv Sys2Proof.Machine.State.reset

/-- 10_state.md section 4: every operation but a direct SETANGLE above 180 keeps the stored angles within 0..180. That a
whole frame is one operation is log entry 3. -/
def Obligations.StoredAnglesStayInRange : Prop :=
  ∀ (i : Instr) (s t : State), s.cfg.Valid → AnglesInRange s → i.angleChecked → exec i s = .next t → AnglesInRange t

/-! ### Encoding -/

/-- 30_encoding.md: decoding the word of a well-formed operation gives it back, with every operand. -/
def Obligations.DecodeInvertsEncode : Prop :=
  ∀ i : Instr, i.wf = true → decode (encode i) = .ok i

/-- 30_encoding.md: a word that decodes is the word of the well-formed operation it decodes to, so that no bit is
dropped. That GETANGLE, DISABLEALL and INIT have one word each, as every other operation, holds because the model keeps their
ignored bits, which may hold anything (section 7), as an operand: log entry 8, the model's choice. -/
def Obligations.EncodeInvertsDecode : Prop :=
  ∀ (w : PortWord) (i : Instr), decode w = .ok i → i.wf = true ∧ encode i = w

/-- 30_encoding.md sections 1, 3 and 7: only a frame word without the header and the reset pin at 0 stand for no operation. -/
def Obligations.OnlyTwoKindsOfWordAreRejected : Prop :=
  ∀ w : PortWord, (∃ e, decode w = .error e) ↔
    (∃ f : BitVec 32, w = .frame f ∧ f.toNat / 2 ^ 24 ≠ 255) ∨ w = .resetPin 0#1

/-- The encoding vectors of 95_test_vectors.md section 6. The operand of ignored bits is log entry 8. -/
def Obligations.SpecWordsDecodeAsWritten : Prop :=
  decode (.frame 0xFF025A5B#32) = .ok (.servoCmd 2#8 90#8 0x5B#8) ∧
  decode (.frame 0xFF05B4B8#32) = .ok (.servoCmd 5#8 180#8 0xB8#8) ∧
  decode (.selector 0x0FF#10) = .ok .hdrAccept ∧ decode (.selector 0x001#10) = .ok (.hdrDrop 1#8) ∧
  decode (.selector 0x102#10) = .ok (.idxStore 2#8) ∧ decode (.selector 0x25A#10) = .ok (.angStore 0x5A#8) ∧
  decode (.selector 0x35B#10) = .ok (.csumFinal 0x5B#8) ∧ decode (.command 0x0025A#18) = .ok (.setAngle 2#8 90#8) ∧
  decode (.command 0x10100#18) = .ok (.getAngle 1#8 0#8) ∧ decode (.command 0x20000#18) = .ok (.disableAll 0#16) ∧
  decode (.command 0x30000#18) = .ok (.init 0#16) ∧ decode (.resetPin 1#1) = .ok .reset

/-- 30_encoding.md section 7 (decision D19): the two bits `cmd_op` choose the local operation that the step runs. The
operand of ignored bits is log entry 8. -/
def Obligations.CommandPortSelectsItsOperation : Prop :=
  ∀ (s : State) (op : BitVec 2) (i a : Byte) (rest : List Arrival),
    s.cfg.Valid → s.started = true → s.pending = .cycle (.cmd op i a) :: rest →
    (op.toNat = 0 → step s = exec (.setAngle i a) { s with pending := rest }) ∧
    (op.toNat = 1 → step s = exec (.getAngle i a) { s with pending := rest }) ∧
    (op.toNat = 2 → step s = exec (.disableAll (i ++ a)) { s with pending := rest }) ∧
    (op.toNat = 3 → step s = exec (.init (i ++ a)) { s with pending := rest })

/-! ### The step -/

/-- 00_scope.md R7: when the next arrival presents a word that decodes to `i`, the step runs `i` on the state with that arrival
taken; before the first RESET only RESET runs (log entry 6). -/
def Obligations.StepRunsTheDecodedOperation : Prop :=
  ∀ (s : State) (x : Arrival) (rest : List Arrival) (w : PortWord) (i : Instr),
    s.cfg.Valid → s.pending = x :: rest → x.present s.dstate = .word w → decode w = .ok i →
    (s.started = true ∨ i = .reset) → step s = exec i { s with pending := rest }

/-- A word placed for the next fetch is the operation the next step runs, in the decoder state a selector names and otherwise in
the state as it stands (log entry 1). -/
def Obligations.PlacedWordIsRunNext : Prop :=
  ∀ (s : State) (i : Instr), i.wf = true → s.cfg.Valid → s.started = true →
    step (s.withFetchWord (encode i).nbits (encode i).toNat) =
      exec i { s with dstate := wordDState (encode i) s.dstate }

/-- 40_decoder.md section 5 and 70_reset_and_hazards.md section 3: after the first RESET, under an admitted configuration, every
arrival but two events at once is processed to completion, and with nothing delivered the block stays as it is. -/
def Obligations.BlockNeverStops : Prop :=
  ∀ s : State, s.cfg.Valid → s.started = true →
    (s.pending = [] → step s = .next s) ∧
    (∀ x rest, s.pending = x :: rest → x.present s.dstate ≠ .clash →
      ∃ t, step s = .next t ∧ t.pending = rest ∧ t.started = true)

/-- 30_encoding.md section 7 (decision D21): a byte and a local command in one cycle are refused, and so is either beside RESET
(log entry 7). -/
def Obligations.TwoEventsAtOnceAreRefused : Prop :=
  ∀ (s : State) (p : InputPins) (rest : List Arrival), s.cfg.Valid → s.pending = .cycle p :: rest →
    (p.rxValid = true ∧ p.cmdValid = true ∨ p.rst = true ∧ (p.rxValid = true ∨ p.cmdValid = true)) →
    step s = .refused .simultaneousEvents

/-- 00_scope.md section 4 and 10_state.md section 9 (decisions D6 to D11): a configuration the spec does not admit is refused,
and so is any event but RESET before the first RESET (log entries 6, 16). -/
def Obligations.UnreadyBlockIsRefused : Prop :=
  (∀ s : State, ¬ s.cfg.Valid → step s = .refused .invalidConfiguration) ∧
  (∀ (s : State) (x : Arrival) (rest : List Arrival) (w : PortWord) (i : Instr),
    s.cfg.Valid → s.started = false → s.pending = x :: rest → x.present s.dstate = .word w → decode w = .ok i →
    i ≠ .reset → step s = .refused .beforeFirstReset)

/-- 30_encoding.md section 7 (decision D2): a cycle with no valid pin is no event and changes nothing, whatever its data pins. -/
def Obligations.IdleCycleChangesNothing : Prop :=
  ∀ (s : State) (p : InputPins) (rest : List Arrival), s.cfg.Valid → s.pending = .cycle p :: rest →
    p.rst = false → p.rxValid = false → p.cmdValid = false → step s = .next { s with pending := rest }

/-! ### What cannot be observed -/

/-- 10_state.md sections 3 and 9: buffer cells that the frame in progress has not filled are never observed: two states that
differ in them alone take steps that differ in them alone. -/
def Obligations.UnfilledBufferIsUnobservable : Prop :=
  ∀ s t s' : State, SameButUnfilled s t → step s = .next s' →
    ∃ t', step t = .next t' ∧ SameButUnfilled s' t'

/-- 10_state.md section 4 and 20_memory.md section 7: the stored angles reach nothing but GETANGLE's answer: any other operation
does the same, whatever they are. That a whole frame is one operation is log entry 3. -/
def Obligations.StoredAnglesOnlyReachGetAngle : Prop :=
  ∀ (i : Instr) (s t : State) (angles : List Byte), (∀ idx x, i ≠ .getAngle idx x) → exec i s = .next t →
    ∃ angles', exec i { s with curAngle := angles } = .next { t with curAngle := angles' }

/-- 30_encoding.md section 7 (decision D2): on the output pins two safe events that differ are never alike, for a frequency of
at most 16 bits. -/
def Obligations.PinsTellEventsApart : Prop :=
  ∀ (c : Config) (busy : Bool) (e e' : OutputEvent), c.Valid → c.pwmFreq < 2 ^ 16 →
    EventSafe c e → EventSafe c e' → e.pins busy = e'.pins busy → e = e'
end

