-- ==== Sys2Proof/Laws/Decode.lean ====
section
/-!
SUPPORT. The fields of a word put together from its fields, for each of the three formats (30_encoding.md R40, R45, R54), and
what the decoder and the fetch make of such a word.
-/

namespace Sys2Proof

/-! ### Fields of a word -/

@[simp] theorem frame_first (h i a c : Byte) : (h ++ i ++ a ++ c).extractLsb' 24 8 = h := by
  rw [BitVec.extractLsb'_append_eq_of_le (by decide), BitVec.extractLsb'_append_eq_of_le (by decide)]
  exact BitVec.extractLsb'_append_eq_left
@[simp] theorem frame_second (h i a c : Byte) : (h ++ i ++ a ++ c).extractLsb' 16 8 = i := by
  rw [BitVec.extractLsb'_append_eq_of_le (by decide), BitVec.extractLsb'_append_eq_of_le (by decide)]
  exact BitVec.extractLsb'_append_eq_right
@[simp] theorem frame_third (h i a c : Byte) : (h ++ i ++ a ++ c).extractLsb' 8 8 = a := by
  rw [BitVec.extractLsb'_append_eq_of_le (by decide)]
  exact BitVec.extractLsb'_append_eq_right
@[simp] theorem frame_fourth (h i a c : Byte) : (h ++ i ++ a ++ c).extractLsb' 0 8 = c :=
  BitVec.extractLsb'_append_eq_right

@[simp] theorem selector_state (d : BitVec 2) (b : Byte) : (d ++ b).extractLsb' 8 2 = d :=
  BitVec.extractLsb'_append_eq_left
@[simp] theorem selector_byte (d : BitVec 2) (b : Byte) : (d ++ b).extractLsb' 0 8 = b :=
  BitVec.extractLsb'_append_eq_right

@[simp] theorem command_op (o : BitVec 2) (i a : Byte) : (o ++ i ++ a).extractLsb' 16 2 = o := by
  rw [BitVec.extractLsb'_append_eq_of_le (by decide)]
  exact BitVec.extractLsb'_append_eq_left
@[simp] theorem command_index (o : BitVec 2) (i a : Byte) : (o ++ i ++ a).extractLsb' 8 8 = i := by
  rw [BitVec.extractLsb'_append_eq_of_le (by decide)]
  exact BitVec.extractLsb'_append_eq_right
@[simp] theorem command_angle (o : BitVec 2) (i a : Byte) : (o ++ i ++ a).extractLsb' 0 8 = a :=
  BitVec.extractLsb'_append_eq_right
@[simp] theorem command_both (o : BitVec 2) (i a : Byte) : (o ++ i ++ a).extractLsb' 0 16 = i ++ a := by
  rw [BitVec.append_assoc]
  exact BitVec.extractLsb'_append_eq_right
@[simp] theorem command_op_wide (o : BitVec 2) (x : BitVec 16) : (o ++ x).extractLsb' 16 2 = o :=
  BitVec.extractLsb'_append_eq_left
@[simp] theorem command_rest_wide (o : BitVec 2) (x : BitVec 16) : (o ++ x).extractLsb' 0 16 = x :=
  BitVec.extractLsb'_append_eq_right

/-! ### A word from its fields -/

/-- A frame word is its four bytes put together. -/
theorem frame_rejoin (f : BitVec 32) :
    f.extractLsb' 24 8 ++ f.extractLsb' 16 8 ++ f.extractLsb' 8 8 ++ f.extractLsb' 0 8 = f := by
  apply BitVec.eq_of_getLsbD_eq
  intro k hk
  simp only [BitVec.getLsbD_append, BitVec.getLsbD_extractLsb']
  by_cases h1 : k < 8
  · simp only [h1, if_true, decide_true, Bool.true_and, Nat.zero_add]
  by_cases h2 : k - 8 < 8
  · simp only [h1, h2, if_true, if_false, decide_true, Bool.true_and]
    congr 1; omega
  by_cases h3 : k - 8 - 8 < 8
  · simp only [h1, h2, h3, if_true, if_false, decide_true, Bool.true_and]
    congr 1; omega
  · simp only [h1, h2, h3, if_false, show k - 8 - 8 - 8 < 8 by omega, decide_true, Bool.true_and]
    congr 1; omega

/-- A word is its high and low parts put together. -/
theorem append_rejoin {n m : Nat} (x : BitVec (n + m)) : x.extractLsb' m n ++ x.extractLsb' 0 m = x := by
  apply BitVec.eq_of_getLsbD_eq
  intro k hk
  simp only [BitVec.getLsbD_append, BitVec.getLsbD_extractLsb']
  by_cases h : k < m
  · simp only [h, if_true, decide_true, Bool.true_and, Nat.zero_add]
  · simp only [h, if_false, show k - m < n by omega, decide_true, Bool.true_and]
    congr 1; omega

/-- A command word is its three fields put together. -/
theorem command_rejoin (x : BitVec 18) :
    x.extractLsb' 16 2 ++ x.extractLsb' 8 8 ++ x.extractLsb' 0 8 = x := by
  apply BitVec.eq_of_getLsbD_eq
  intro k hk
  simp only [BitVec.getLsbD_append, BitVec.getLsbD_extractLsb']
  by_cases h1 : k < 8
  · simp only [h1, if_true, decide_true, Bool.true_and, Nat.zero_add]
  by_cases h2 : k - 8 < 8
  · simp only [h1, h2, if_true, if_false, decide_true, Bool.true_and]
    congr 1; omega
  · simp only [h1, h2, if_false, show k - 8 - 8 < 2 by omega, decide_true, Bool.true_and]
    congr 1; omega

/-- The four values of a two-bit field. -/
theorem two_bits (x : BitVec 2) : x = 0#2 ∨ x = 1#2 ∨ x = 2#2 ∨ x = 3#2 := by
  revert x; decide

/-! ### A word in the table's numbering -/

theorem tableWord_nbits_toNat (w : PortWord) : tableWord w.nbits w.toNat = some w := by
  cases w <;> rename_i x <;> simp [tableWord, PortWord.nbits, PortWord.toNat, x.isLt]

namespace Machine

@[simp] theorem DState.ofCode_code (d : DState) : DState.ofCode d.code = d := by
  cases d <;> rfl

@[simp] theorem InputPins.present_rx (b : Byte) (d : DState) :
    (InputPins.rx b).present d = .word (.selector (d.code ++ b)) := rfl

@[simp] theorem InputPins.present_cmd (o : BitVec 2) (i a : Byte) (d : DState) :
    (InputPins.cmd o i a).present d = .word (.command (o ++ i ++ a)) := rfl

@[simp] theorem InputPins.present_resetOn (d : DState) : InputPins.resetOn.present d = .word (.resetPin 1#1) := rfl

@[simp] theorem InputPins.present_idle (d : DState) : InputPins.idle.present d = .nothing := rfl

/-- Everything an arrival can present: nothing, a clash, or a word that decodes. -/
theorem Arrival.present_cases (x : Arrival) (d : DState) :
    x.present d = .nothing ∨ x.present d = .clash ∨ ∃ w i, x.present d = .word w ∧ decode w = .ok i := by
  cases x with
  | frame i a c => exact .inr (.inr ⟨_, .servoCmd i a c, rfl, by simp [decode, decodeFrame]⟩)
  | cycle p =>
    simp only [Arrival.present, InputPins.present]
    split
    · exact .inl rfl
    · exact .inr (.inr ⟨_, .reset, rfl, rfl⟩)
    · exact .inr (.inr ⟨_, _, rfl, rfl⟩)
    · exact .inr (.inr ⟨_, _, rfl, rfl⟩)
    · exact .inr (.inl rfl)

/-- A byte operation is only ever fetched in the decoder state of its row of the transition table (R45). -/
theorem Arrival.present_fits {x : Arrival} {d : DState} {w : PortWord} {i : Instr}
    (hx : x.present d = .word w) (hd : decode w = .ok i) (b : Byte) :
    (i = .hdrAccept → d = .awaitingHeader) ∧ (i = .hdrDrop b → d = .awaitingHeader) ∧
    (i = .idxStore b → d = .awaitingIndex) ∧ (i = .angStore b → d = .awaitingAngle) ∧
    (i = .csumFinal b → d = .awaitingChecksum) := by
  cases x with
  | frame i' a c =>
    simp only [Arrival.present, Presented.word.injEq] at hx
    subst hx
    simp only [decode, decodeFrame, frame_first, if_true, Except.ok.injEq] at hd
    subst hd
    simp
  | cycle p =>
    simp only [Arrival.present, InputPins.present] at hx
    split at hx <;> cases hx
    · simp only [decode, if_true, Except.ok.injEq] at hd
      subst hd
      simp
    · simp only [decode, decodeSelector, selector_state, selector_byte, Except.ok.injEq] at hd
      cases d <;> simp [DState.code] at hd <;> subst hd <;> (try split) <;> simp
    · simp only [decode, decodeCommand] at hd
      (repeat' split at hd) <;> cases hd <;> simp

end Machine

end Sys2Proof
end

