-- ==== Sys2Proof/Laws/Operands.lean ====
section
/-!
SUPPORT. What the actuator's arithmetic can do: the clamp, the conversion, the index check, the event lists.
-/

namespace Sys2Proof.Machine

theorem indexValid_iff (c : Config) (i : Byte) : indexValid c i = true ↔ i.toNat < c.servoCount := by
  simp [indexValid]

theorem clamp_eq_max_min {lo hi : Int} (h : lo ≤ hi) (x : Int) : clamp x lo hi = max lo (min hi x) := by
  unfold clamp
  split
  · omega
  · split <;> omega

theorem safeAngle_cast (c : Config) (i a : Byte) :
    (safeAngle c i a : Int) = max 0 (min 180 (trimmed c i a)) := by
  have h := clamp_eq_max_min (lo := 0) (hi := 180) (by decide) (trimmed c i a)
  have h' : safeAngle c i a = (clamp (trimmed c i a) 0 180).toNat := rfl
  rw [h', h]
  omega

theorem safeAngle_le (c : Config) (i a : Byte) : safeAngle c i a ≤ 180 := by
  have := safeAngle_cast c i a
  omega

theorem minPulse_le_pulseOf (c : Config) (x : Nat) : c.minPulse ≤ pulseOf c x := Nat.le_add_right _ _

theorem pulseOf_le_maxPulse {c : Config} (h : c.minPulse ≤ c.maxPulse) {x : Nat} (hx : x ≤ 180) :
    pulseOf c x ≤ c.maxPulse := by
  have : x * (c.maxPulse - c.minPulse) / 180 ≤ c.maxPulse - c.minPulse :=
    Nat.div_le_of_le_mul (Nat.mul_le_mul_right _ hx)
  simp only [pulseOf]
  omega

theorem trimOf_bounds {c : Config} (h : c.Valid) (i : Byte) : -128 ≤ trimOf c i ∧ trimOf c i ≤ 127 := by
  unfold trimOf
  by_cases hi : i.toNat < c.trimOffsets.length
  · rw [List.getD_eq_getElem _ _ hi]
    exact h.2.2.2.2 _ (List.getElem_mem hi)
  · rw [List.getD_eq_default _ _ (Nat.le_of_not_lt hi)]
    decide

theorem initAngleOf_mem {c : Config} {i : Nat} (h : i < c.initAngles.length) : initAngleOf c i ∈ c.initAngles := by
  rw [initAngleOf, List.getD_eq_getElem _ _ h]
  exact List.getElem_mem h

@[simp] theorem disableEvents_length (c : Config) : (disableEvents c).length = c.servoCount := by
  simp [disableEvents]

@[simp] theorem initEvents_length (c : Config) : (initEvents c).length = c.servoCount + 1 := by
  simp [initEvents]

end Sys2Proof.Machine
end

