-- ==== Sys2Proof/Laws/State.lean ====
section
/-!
SUPPORT. What each field of the state is after each plain update of Machine/Ops.lean: one lemma per field per update, so that no
later proof unfolds a record update.
-/

namespace Sys2Proof.Machine

variable (s : State)

@[simp] theorem State.emit_cfg (es : List OutputEvent) : (s.emit es).cfg = s.cfg := rfl
@[simp] theorem State.emit_dstate (es : List OutputEvent) : (s.emit es).dstate = s.dstate := rfl
@[simp] theorem State.emit_packet (es : List OutputEvent) : (s.emit es).packet = s.packet := rfl
@[simp] theorem State.emit_curAngle (es : List OutputEvent) : (s.emit es).curAngle = s.curAngle := rfl
@[simp] theorem State.emit_started (es : List OutputEvent) : (s.emit es).started = s.started := rfl
@[simp] theorem State.emit_pending (es : List OutputEvent) : (s.emit es).pending = s.pending := rfl
@[simp] theorem State.emit_trace (es : List OutputEvent) : (s.emit es).trace = s.trace ++ es := rfl
@[simp] theorem State.emit_freeIx (es : List OutputEvent) : (s.emit es).freeIx = s.freeIx := rfl

@[simp] theorem State.writeAngle_cfg (i a : Byte) : (s.writeAngle i a).cfg = s.cfg := rfl
@[simp] theorem State.writeAngle_dstate (i a : Byte) : (s.writeAngle i a).dstate = s.dstate := rfl
@[simp] theorem State.writeAngle_packet (i a : Byte) : (s.writeAngle i a).packet = s.packet := rfl
@[simp] theorem State.writeAngle_curAngle (i a : Byte) : (s.writeAngle i a).curAngle = s.curAngle.set i.toNat a := rfl
@[simp] theorem State.writeAngle_started (i a : Byte) : (s.writeAngle i a).started = s.started := rfl
@[simp] theorem State.writeAngle_pending (i a : Byte) : (s.writeAngle i a).pending = s.pending := rfl
@[simp] theorem State.writeAngle_trace (i a : Byte) : (s.writeAngle i a).trace = s.trace := rfl
@[simp] theorem State.writeAngle_freeIx (i a : Byte) : (s.writeAngle i a).freeIx = s.freeIx := rfl

@[simp] theorem State.acceptHeader_cfg : s.acceptHeader.cfg = s.cfg := rfl
@[simp] theorem State.acceptHeader_dstate : s.acceptHeader.dstate = .awaitingIndex := rfl
@[simp] theorem State.acceptHeader_packet : s.acceptHeader.packet = { s.packet with cell0 := header } := rfl
@[simp] theorem State.acceptHeader_curAngle : s.acceptHeader.curAngle = s.curAngle := rfl
@[simp] theorem State.acceptHeader_started : s.acceptHeader.started = s.started := rfl
@[simp] theorem State.acceptHeader_pending : s.acceptHeader.pending = s.pending := rfl
@[simp] theorem State.acceptHeader_trace : s.acceptHeader.trace = s.trace := rfl
@[simp] theorem State.acceptHeader_freeIx : s.acceptHeader.freeIx = s.freeIx := rfl

@[simp] theorem State.storeIndex_cfg (b : Byte) : (s.storeIndex b).cfg = s.cfg := rfl
@[simp] theorem State.storeIndex_dstate (b : Byte) : (s.storeIndex b).dstate = .awaitingAngle := rfl
@[simp] theorem State.storeIndex_packet (b : Byte) : (s.storeIndex b).packet = { s.packet with cell1 := b } := rfl
@[simp] theorem State.storeIndex_curAngle (b : Byte) : (s.storeIndex b).curAngle = s.curAngle := rfl
@[simp] theorem State.storeIndex_started (b : Byte) : (s.storeIndex b).started = s.started := rfl
@[simp] theorem State.storeIndex_pending (b : Byte) : (s.storeIndex b).pending = s.pending := rfl
@[simp] theorem State.storeIndex_trace (b : Byte) : (s.storeIndex b).trace = s.trace := rfl
@[simp] theorem State.storeIndex_freeIx (b : Byte) : (s.storeIndex b).freeIx = s.freeIx := rfl

@[simp] theorem State.storeAngle_cfg (b : Byte) : (s.storeAngle b).cfg = s.cfg := rfl
@[simp] theorem State.storeAngle_dstate (b : Byte) : (s.storeAngle b).dstate = .awaitingChecksum := rfl
@[simp] theorem State.storeAngle_packet (b : Byte) : (s.storeAngle b).packet = { s.packet with cell2 := b } := rfl
@[simp] theorem State.storeAngle_curAngle (b : Byte) : (s.storeAngle b).curAngle = s.curAngle := rfl
@[simp] theorem State.storeAngle_started (b : Byte) : (s.storeAngle b).started = s.started := rfl
@[simp] theorem State.storeAngle_pending (b : Byte) : (s.storeAngle b).pending = s.pending := rfl
@[simp] theorem State.storeAngle_trace (b : Byte) : (s.storeAngle b).trace = s.trace := rfl
@[simp] theorem State.storeAngle_freeIx (b : Byte) : (s.storeAngle b).freeIx = s.freeIx := rfl

@[simp] theorem State.storeChecksum_cfg (b : Byte) : (s.storeChecksum b).cfg = s.cfg := rfl
@[simp] theorem State.storeChecksum_dstate (b : Byte) : (s.storeChecksum b).dstate = s.dstate := rfl
@[simp] theorem State.storeChecksum_packet (b : Byte) : (s.storeChecksum b).packet = { s.packet with cell3 := b } := rfl
@[simp] theorem State.storeChecksum_curAngle (b : Byte) : (s.storeChecksum b).curAngle = s.curAngle := rfl
@[simp] theorem State.storeChecksum_started (b : Byte) : (s.storeChecksum b).started = s.started := rfl
@[simp] theorem State.storeChecksum_pending (b : Byte) : (s.storeChecksum b).pending = s.pending := rfl
@[simp] theorem State.storeChecksum_trace (b : Byte) : (s.storeChecksum b).trace = s.trace := rfl
@[simp] theorem State.storeChecksum_freeIx (b : Byte) : (s.storeChecksum b).freeIx = s.freeIx := rfl

@[simp] theorem State.reportOutcome_cfg (k : StatusCode) : (s.reportOutcome k).cfg = s.cfg := rfl
@[simp] theorem State.reportOutcome_dstate (k : StatusCode) : (s.reportOutcome k).dstate = .awaitingHeader := rfl
@[simp] theorem State.reportOutcome_packet (k : StatusCode) : (s.reportOutcome k).packet = s.packet := rfl
@[simp] theorem State.reportOutcome_curAngle (k : StatusCode) : (s.reportOutcome k).curAngle = s.curAngle := rfl
@[simp] theorem State.reportOutcome_started (k : StatusCode) : (s.reportOutcome k).started = s.started := rfl
@[simp] theorem State.reportOutcome_pending (k : StatusCode) : (s.reportOutcome k).pending = s.pending := rfl
@[simp] theorem State.reportOutcome_trace (k : StatusCode) : (s.reportOutcome k).trace = s.trace ++ [.status k] := rfl
@[simp] theorem State.reportOutcome_freeIx (k : StatusCode) : (s.reportOutcome k).freeIx = s.freeIx := rfl

@[simp] theorem State.rejectFrame_cfg (k : StatusCode) : (s.rejectFrame k).cfg = s.cfg := rfl
@[simp] theorem State.rejectFrame_dstate (k : StatusCode) : (s.rejectFrame k).dstate = .awaitingHeader := rfl
@[simp] theorem State.rejectFrame_packet (k : StatusCode) : (s.rejectFrame k).packet = s.packet := rfl
@[simp] theorem State.rejectFrame_curAngle (k : StatusCode) : (s.rejectFrame k).curAngle = s.curAngle := rfl
@[simp] theorem State.rejectFrame_started (k : StatusCode) : (s.rejectFrame k).started = s.started := rfl
@[simp] theorem State.rejectFrame_pending (k : StatusCode) : (s.rejectFrame k).pending = s.pending := rfl
@[simp] theorem State.rejectFrame_trace (k : StatusCode) : (s.rejectFrame k).trace = s.trace ++ [.status k] := rfl
@[simp] theorem State.rejectFrame_freeIx (k : StatusCode) : (s.rejectFrame k).freeIx = s.freeIx := rfl

@[simp] theorem State.disableOutputs_cfg : s.disableOutputs.cfg = s.cfg := rfl
@[simp] theorem State.disableOutputs_dstate : s.disableOutputs.dstate = s.dstate := rfl
@[simp] theorem State.disableOutputs_packet : s.disableOutputs.packet = s.packet := rfl
@[simp] theorem State.disableOutputs_curAngle : s.disableOutputs.curAngle = s.curAngle := rfl
@[simp] theorem State.disableOutputs_started : s.disableOutputs.started = s.started := rfl
@[simp] theorem State.disableOutputs_pending : s.disableOutputs.pending = s.pending := rfl
@[simp] theorem State.disableOutputs_trace : s.disableOutputs.trace = s.trace ++ disableEvents s.cfg := rfl
@[simp] theorem State.disableOutputs_freeIx : s.disableOutputs.freeIx = s.freeIx := rfl

@[simp] theorem State.freePacket_cfg : s.freePacket.cfg = s.cfg := rfl
@[simp] theorem State.freePacket_dstate : s.freePacket.dstate = s.dstate := rfl
@[simp] theorem State.freePacket_packet : s.freePacket.packet = ⟨Config.freeByte s.freeIx, Config.freeByte (s.freeIx + 1), Config.freeByte (s.freeIx + 2),
      Config.freeByte (s.freeIx + 3)⟩ := rfl
@[simp] theorem State.freePacket_curAngle : s.freePacket.curAngle = s.curAngle := rfl
@[simp] theorem State.freePacket_started : s.freePacket.started = s.started := rfl
@[simp] theorem State.freePacket_pending : s.freePacket.pending = s.pending := rfl
@[simp] theorem State.freePacket_trace : s.freePacket.trace = s.trace := rfl
@[simp] theorem State.freePacket_freeIx : s.freePacket.freeIx = s.freeIx + 4 := rfl

@[simp] theorem State.emit_nil : s.emit [] = s := by simp [State.emit]

@[simp] theorem State.emit_emit (es fs : List OutputEvent) : (s.emit es).emit fs = s.emit (es ++ fs) := by
  simp [State.emit]

@[simp] theorem State.resetWith_cfg (c : Config) : (State.resetWith c).cfg = c := rfl
@[simp] theorem State.resetWith_dstate (c : Config) : (State.resetWith c).dstate = .awaitingHeader := rfl
@[simp] theorem State.resetWith_packet (c : Config) : (State.resetWith c).packet = ⟨0#8, 0#8, 0#8, 0#8⟩ := rfl
@[simp] theorem State.resetWith_curAngle (c : Config) : (State.resetWith c).curAngle = c.initAngles := rfl
@[simp] theorem State.resetWith_started (c : Config) : (State.resetWith c).started = true := rfl
@[simp] theorem State.resetWith_pending (c : Config) : (State.resetWith c).pending = [] := rfl
@[simp] theorem State.resetWith_trace (c : Config) : (State.resetWith c).trace = initEvents c := rfl
@[simp] theorem State.resetWith_freeIx (c : Config) : (State.resetWith c).freeIx = 0 := rfl

end Sys2Proof.Machine
end

