-- ==== Sys2Proof/Laws/Ops.lean ====
section
/-!
SUPPORT. For each shared operation of Machine/Ops.lean, what it can do, said once: SETANGLE's body, INIT's loop, RESET,
finalize, and a byte's reception.
-/

namespace Sys2Proof.Machine

variable (s : State)

/-! ### SETANGLE's body -/

theorem State.driveServo_of_valid {s : State} {i : Byte} (a : Byte) (h : i.toNat < s.cfg.servoCount) :
    s.driveServo i a =
      { s with curAngle := s.curAngle.set i.toNat a, trace := s.trace ++ [pulseEvent s.cfg i a] } := by
  simp [State.driveServo, (indexValid_iff s.cfg i).2 h, State.emit, State.writeAngle]

theorem State.driveServo_of_invalid {s : State} {i : Byte} (a : Byte) (h : s.cfg.servoCount ≤ i.toNat) :
    s.driveServo i a = s := by
  simp [State.driveServo, indexValid, Nat.not_lt.2 h]

/-- Everything SETANGLE's body can do: nothing, or one event and one store. -/
theorem State.driveServo_cases (i a : Byte) :
    (i.toNat < s.cfg.servoCount ∧ s.driveServo i a =
      { s with curAngle := s.curAngle.set i.toNat a, trace := s.trace ++ [pulseEvent s.cfg i a] }) ∨
    (s.cfg.servoCount ≤ i.toNat ∧ s.driveServo i a = s) := by
  rcases Nat.lt_or_ge i.toNat s.cfg.servoCount with h | h
  · exact .inl ⟨h, State.driveServo_of_valid a h⟩
  · exact .inr ⟨h, State.driveServo_of_invalid a h⟩

@[simp] theorem State.driveServo_cfg (i a : Byte) : (s.driveServo i a).cfg = s.cfg := by
  simp only [State.driveServo]; split <;> rfl
@[simp] theorem State.driveServo_dstate (i a : Byte) : (s.driveServo i a).dstate = s.dstate := by
  simp only [State.driveServo]; split <;> rfl
@[simp] theorem State.driveServo_packet (i a : Byte) : (s.driveServo i a).packet = s.packet := by
  simp only [State.driveServo]; split <;> rfl
@[simp] theorem State.driveServo_started (i a : Byte) : (s.driveServo i a).started = s.started := by
  simp only [State.driveServo]; split <;> rfl
@[simp] theorem State.driveServo_pending (i a : Byte) : (s.driveServo i a).pending = s.pending := by
  simp only [State.driveServo]; split <;> rfl
@[simp] theorem State.driveServo_freeIx (i a : Byte) : (s.driveServo i a).freeIx = s.freeIx := by
  simp only [State.driveServo]; split <;> rfl

/-! ### INIT's loop -/

/-- The first `k` rounds of INIT's loop: `k` events in ascending order, the first `k` angles stored. -/
theorem State.initRounds_eq (k : Nat) (hk : k ≤ s.cfg.servoCount) (hN : s.cfg.servoCount ≤ 256) :
    (List.range k).foldl State.initServo s =
      { s with
        curAngle := (List.range k).foldl (fun l i => l.set i (initAngleOf s.cfg i)) s.curAngle
        trace := s.trace ++
          (List.range k).map fun i => pulseEvent s.cfg (BitVec.ofNat 8 i) (initAngleOf s.cfg i) } := by
  induction k with
  | zero => simp
  | succ k ih =>
    have hlt : (BitVec.ofNat 8 k).toNat = k := by simp only [BitVec.toNat_ofNat]; omega
    rw [List.range_succ, List.foldl_append, ih (by omega)]
    simp only [List.foldl_cons, List.foldl_nil, List.foldl_append, List.map_append, List.map_cons, List.map_nil]
    rw [State.initServo, State.driveServo_of_valid _ (by simp only [hlt]; omega)]
    simp [hlt]

/-- Storing the first `k` entries of a list over a list of at least that length. -/
theorem foldl_set_eq (f : Nat → Byte) (k : Nat) (l : List Byte) (h : k ≤ l.length) :
    (List.range k).foldl (fun l i => l.set i (f i)) l = (List.range k).map f ++ l.drop k := by
  induction k with
  | zero => simp
  | succ k ih =>
    rw [List.range_succ, List.foldl_append, ih (by omega), List.map_append]
    have hd : l.drop k = l[k] :: l.drop (k + 1) := List.drop_eq_getElem_cons (by omega)
    simp only [List.foldl_cons, List.foldl_nil, List.map_cons, List.map_nil]
    rw [List.set_append_right _ _ (by simp), List.length_map, List.length_range, Nat.sub_self, hd,
      List.set_cons_zero, List.append_assoc, List.singleton_append]

/-- INIT's body: the events of `initEvents`, and one pass of stores. -/
theorem State.initAll_eq (hN : s.cfg.servoCount ≤ 256) :
    s.initAll =
      { s with
        curAngle := (List.range s.cfg.servoCount).foldl (fun l i => l.set i (initAngleOf s.cfg i)) s.curAngle
        trace := s.trace ++ initEvents s.cfg } := by
  have h := State.initRounds_eq (s.emit [.pwmSetFrequency s.cfg.pwmFreq]) s.cfg.servoCount (by simp) (by simpa using hN)
  simpa [State.initAll, State.emit, initEvents] using h

theorem map_initAngleOf {c : Config} (h : c.initAngles.length = c.servoCount) :
    (List.range c.servoCount).map (initAngleOf c) = c.initAngles := by
  apply List.ext_getElem
  · simp [h]
  · intro n h1 h2
    rw [List.getElem_map, List.getElem_range, initAngleOf, List.getD_eq_getElem _ _ h2]

/-- On a block whose angle array has its `N` cells, INIT leaves the initial angles there. -/
theorem State.initAll_of_valid {s : State} (hv : s.cfg.Valid) (hl : s.curAngle.length = s.cfg.servoCount) :
    s.initAll = { s with curAngle := s.cfg.initAngles, trace := s.trace ++ initEvents s.cfg } := by
  rw [State.initAll_eq s hv.1.2, foldl_set_eq _ _ _ (by omega), map_initAngleOf hv.2.2.1.1]
  simp [List.drop_eq_nil_of_le (Nat.le_of_eq hl)]

/-- A list of rounds of INIT's loop keeps any relation to the first state that one SETANGLE keeps. -/
theorem State.initServo_induct {R : State → Prop} (h : ∀ u i a, R u → R (u.driveServo i a)) (l : List Nat) :
    ∀ u, R u → R (l.foldl State.initServo u) := by
  induction l with
  | nil => exact fun _ hu => hu
  | cons i l ih => exact fun u hu => ih _ (h _ _ _ hu)

@[simp] theorem State.initAll_cfg : s.initAll.cfg = s.cfg :=
  State.initServo_induct (R := fun u => u.cfg = s.cfg) (by simp) _ _ rfl
@[simp] theorem State.initAll_dstate : s.initAll.dstate = s.dstate :=
  State.initServo_induct (R := fun u => u.dstate = s.dstate) (by simp) _ _ rfl
@[simp] theorem State.initAll_packet : s.initAll.packet = s.packet :=
  State.initServo_induct (R := fun u => u.packet = s.packet) (by simp) _ _ rfl
@[simp] theorem State.initAll_started : s.initAll.started = s.started :=
  State.initServo_induct (R := fun u => u.started = s.started) (by simp) _ _ rfl
@[simp] theorem State.initAll_pending : s.initAll.pending = s.pending :=
  State.initServo_induct (R := fun u => u.pending = s.pending) (by simp) _ _ rfl
@[simp] theorem State.initAll_freeIx : s.initAll.freeIx = s.freeIx :=
  State.initServo_induct (R := fun u => u.freeIx = s.freeIx) (by simp) _ _ rfl

/-! ### RESET -/

@[simp] theorem State.restart_cfg : s.restart.cfg = s.cfg := by simp [State.restart]
@[simp] theorem State.restart_dstate : s.restart.dstate = .awaitingHeader := by simp [State.restart]
@[simp] theorem State.restart_packet : s.restart.packet = s.freePacket.packet := by simp [State.restart]
@[simp] theorem State.restart_started : s.restart.started = true := by simp [State.restart]
@[simp] theorem State.restart_pending : s.restart.pending = s.pending := by simp [State.restart]
@[simp] theorem State.restart_freeIx : s.restart.freeIx = s.freeIx + 4 := by simp [State.restart]

/-- RESET on a block whose angle array has its `N` cells. -/
theorem State.restart_of_valid {s : State} (hv : s.cfg.Valid) (hl : s.curAngle.length = s.cfg.servoCount) :
    s.restart =
      { s.freePacket with
        dstate := .awaitingHeader, started := true
        curAngle := s.cfg.initAngles, trace := s.trace ++ initEvents s.cfg } := by
  simp only [State.restart]
  rw [State.initAll_of_valid (by simpa using hv) (by simpa using hl)]
  rfl

/-! ### Finalize -/

theorem finalOutcome_eq_errChecksum_iff (c : Config) (p : Packet) :
    finalOutcome c p = .errChecksum ↔ checksum p ≠ p.cell3 := by
  simp only [finalOutcome]
  split
  · split <;> simp_all
  · simp_all

theorem rangeOk_iff (c : Config) (p : Packet) :
    rangeOk c p = true ↔ p.cell1.toNat < c.servoCount ∧ p.cell2.toNat ≤ 180 := by
  have : rangeOk c p = true ↔ indexValid c p.cell1 = true ∧ decide (p.cell2.toNat ≤ 180) = true :=
    Bool.and_eq_true_iff
  rw [this, indexValid_iff, decide_eq_true_iff]

theorem finalOutcome_eq_errRange_iff (c : Config) (p : Packet) :
    finalOutcome c p = .errRange ↔
      checksum p = p.cell3 ∧ (c.servoCount ≤ p.cell1.toNat ∨ 180 < p.cell2.toNat) := by
  have hr := rangeOk_iff c p
  by_cases h : checksum p = p.cell3 <;> by_cases h' : rangeOk c p = true <;> simp [finalOutcome, h, h'] <;>
    simp [h'] at hr <;> omega

theorem finalOutcome_eq_ok_iff (c : Config) (p : Packet) :
    finalOutcome c p = .ok ↔
      checksum p = p.cell3 ∧ p.cell1.toNat < c.servoCount ∧ p.cell2.toNat ≤ 180 := by
  have hr := rangeOk_iff c p
  by_cases h : checksum p = p.cell3 <;> by_cases h' : rangeOk c p = true <;> simp [finalOutcome, h, h'] <;>
    simp [h'] at hr <;> omega

/-- Everything finalize can do: one of the three arms. -/
theorem State.finalize_cases :
    (finalOutcome s.cfg s.packet = .errChecksum ∧ s.finalize = s.rejectFrame .errChecksum) ∨
    (finalOutcome s.cfg s.packet = .errRange ∧ s.finalize = s.rejectFrame .errRange) ∨
    (finalOutcome s.cfg s.packet = .ok ∧
      s.finalize = (s.driveServo s.packet.cell1 s.packet.cell2).reportOutcome .ok) := by
  cases h : finalOutcome s.cfg s.packet <;> simp [State.finalize, h]

@[simp] theorem State.finalize_cfg : s.finalize.cfg = s.cfg := by
  rcases s.finalize_cases with ⟨_, h⟩ | ⟨_, h⟩ | ⟨_, h⟩ <;> simp [h]
@[simp] theorem State.finalize_dstate : s.finalize.dstate = .awaitingHeader := by
  rcases s.finalize_cases with ⟨_, h⟩ | ⟨_, h⟩ | ⟨_, h⟩ <;> simp [h]
@[simp] theorem State.finalize_packet : s.finalize.packet = s.packet := by
  rcases s.finalize_cases with ⟨_, h⟩ | ⟨_, h⟩ | ⟨_, h⟩ <;> simp [h]
@[simp] theorem State.finalize_started : s.finalize.started = s.started := by
  rcases s.finalize_cases with ⟨_, h⟩ | ⟨_, h⟩ | ⟨_, h⟩ <;> simp [h]
@[simp] theorem State.finalize_pending : s.finalize.pending = s.pending := by
  rcases s.finalize_cases with ⟨_, h⟩ | ⟨_, h⟩ | ⟨_, h⟩ <;> simp [h]
@[simp] theorem State.finalize_freeIx : s.finalize.freeIx = s.freeIx := by
  rcases s.finalize_cases with ⟨_, h⟩ | ⟨_, h⟩ | ⟨_, h⟩ <;> simp [h]

@[simp] theorem State.closeFrame_cfg (b : Byte) : (s.closeFrame b).cfg = s.cfg := by simp [State.closeFrame]
@[simp] theorem State.closeFrame_dstate (b : Byte) : (s.closeFrame b).dstate = .awaitingHeader := by
  simp [State.closeFrame]
@[simp] theorem State.closeFrame_packet (b : Byte) : (s.closeFrame b).packet = { s.packet with cell3 := b } := by
  simp [State.closeFrame]
@[simp] theorem State.closeFrame_started (b : Byte) : (s.closeFrame b).started = s.started := by
  simp [State.closeFrame]
@[simp] theorem State.closeFrame_pending (b : Byte) : (s.closeFrame b).pending = s.pending := by
  simp [State.closeFrame]
@[simp] theorem State.closeFrame_freeIx (b : Byte) : (s.closeFrame b).freeIx = s.freeIx := by
  simp [State.closeFrame]

theorem checksum_eq_iff (p : Packet) (b : Byte) :
    checksum p = b ↔ (p.cell0.toNat + p.cell1.toNat + p.cell2.toNat) % 256 = b.toNat := by
  rw [← BitVec.toNat_inj]
  simp [checksum]

/-- Everything CSUM_FINAL can do: one event for a rejected frame, or two events and one store for an accepted one. -/
theorem State.closeFrame_cases (b : Byte) :
    (∃ k, k ≠ .ok ∧ finalOutcome s.cfg { s.packet with cell3 := b } = k ∧
      s.closeFrame b =
        { s with
          packet := { s.packet with cell3 := b }, dstate := .awaitingHeader, trace := s.trace ++ [.status k] }) ∨
    (finalOutcome s.cfg { s.packet with cell3 := b } = .ok ∧
      s.packet.cell1.toNat < s.cfg.servoCount ∧ s.packet.cell2.toNat ≤ 180 ∧
      s.closeFrame b =
        { s with
          packet := { s.packet with cell3 := b }, dstate := .awaitingHeader
          curAngle := s.curAngle.set s.packet.cell1.toNat s.packet.cell2
          trace := s.trace ++ [pulseEvent s.cfg s.packet.cell1 s.packet.cell2, .status .ok] }) := by
  cases h : finalOutcome s.cfg { s.packet with cell3 := b } with
  | errChecksum =>
    refine .inl ⟨_, by decide, rfl, ?_⟩
    simp only [State.closeFrame, State.finalize, State.storeChecksum_cfg, State.storeChecksum_packet, h]
    rfl
  | errRange =>
    refine .inl ⟨_, by decide, rfl, ?_⟩
    simp only [State.closeFrame, State.finalize, State.storeChecksum_cfg, State.storeChecksum_packet, h]
    rfl
  | ok =>
    have hr := ((finalOutcome_eq_ok_iff _ _).1 h).2
    refine .inr ⟨rfl, hr.1, hr.2, ?_⟩
    simp only [State.closeFrame, State.finalize, State.storeChecksum_cfg, State.storeChecksum_packet, h]
    rw [State.driveServo_of_valid (s := s.storeChecksum b) _ hr.1]
    simp [State.storeChecksum, State.reportOutcome, State.emit]

/-! ### A byte's reception -/

/-- Everything one byte can do: the five rows of the transition table. -/
theorem State.receiveByte_cases (b : Byte) :
    (s.dstate = .awaitingHeader ∧ b = header ∧ s.receiveByte b = s.acceptHeader) ∨
    (s.dstate = .awaitingHeader ∧ b ≠ header ∧ s.receiveByte b = s) ∨
    (s.dstate = .awaitingIndex ∧ s.receiveByte b = s.storeIndex b) ∨
    (s.dstate = .awaitingAngle ∧ s.receiveByte b = s.storeAngle b) ∨
    (s.dstate = .awaitingChecksum ∧ s.receiveByte b = s.closeFrame b) := by
  by_cases hb : b = header <;> cases h : s.dstate <;> simp [State.receiveByte, h, hb]

/-- What one byte leaves alone in every decoder state. -/
theorem State.receiveByte_frame (b : Byte) :
    (s.receiveByte b).cfg = s.cfg ∧ (s.receiveByte b).started = s.started ∧
    (s.receiveByte b).pending = s.pending ∧ (s.receiveByte b).freeIx = s.freeIx := by
  rcases s.receiveByte_cases b with ⟨_, _, h⟩ | ⟨_, _, h⟩ | ⟨_, h⟩ | ⟨_, h⟩ | ⟨_, h⟩ <;> simp [h]

/-- The arrivals not yet taken have no part in finalizing a frame. -/
theorem State.closeFrame_withPending (b : Byte) (p : List Arrival) :
    State.closeFrame { s with pending := p } b = { s.closeFrame b with pending := p } := by
  rcases s.closeFrame_cases b with ⟨k, _, hk, h⟩ | ⟨hk, _, _, h⟩ <;>
    rcases State.closeFrame_cases { s with pending := p } b with ⟨k', _, hk', h'⟩ | ⟨hk', _, _, h'⟩ <;>
    simp_all

/-- The arrivals not yet taken have no part in what a byte does. -/
theorem State.receiveByte_withPending (b : Byte) (p : List Arrival) :
    State.receiveByte { s with pending := p } b = { s.receiveByte b with pending := p } := by
  cases hd : s.dstate <;> simp only [State.receiveByte, hd]
  · split
    · rfl
    · simp [← hd]
  · rfl
  · rfl
  · rw [← hd]; exact State.closeFrame_withPending s b p

end Sys2Proof.Machine
end

