-- ==== Sys2Proof/Laws/PerInstr.lean ====
section
/-!
SUPPORT. One family of statements made per operation: the decoder the host calls reads a well-formed operation back from its word
in the operation table's numbering.
-/

namespace Sys2Proof.Laws.TableWord

/-- A well-formed operation is what `decodeTableWord` reads from its word. -/
def Statement (i : Instr) : Prop :=
  i.wf = true → decodeTableWord (encode i).nbits (encode i).toNat = some i

/-- `decodeTableWord` on a word's own number is the decoder on the word. -/
theorem of_decode {i : Instr} (h : i.wf = true → decode (encode i) = .ok i) : Statement i := by
  intro hw
  simp [decodeTableWord, tableWord_nbits_toNat, h hw, Except.toOption]

theorem servoCmd (index angle checksum : Byte) : Statement (.servoCmd index angle checksum) :=
  of_decode fun _ => by simp [encode, decode, decodeFrame]
theorem hdrAccept : Statement .hdrAccept :=
  of_decode fun _ => rfl
theorem hdrDrop (b : Byte) : Statement (.hdrDrop b) :=
  of_decode fun h => by
    have hb : b ≠ header := by simpa [Instr.wf] using h
    simp [encode, decode, decodeSelector, hb]
theorem idxStore (b : Byte) : Statement (.idxStore b) :=
  of_decode fun _ => by simp [encode, decode, decodeSelector]
theorem angStore (b : Byte) : Statement (.angStore b) :=
  of_decode fun _ => by simp [encode, decode, decodeSelector]
theorem csumFinal (b : Byte) : Statement (.csumFinal b) :=
  of_decode fun _ => by simp [encode, decode, decodeSelector]
theorem setAngle (index angle : Byte) : Statement (.setAngle index angle) :=
  of_decode fun _ => by simp [encode, decode, decodeCommand]
theorem getAngle (index ignored : Byte) : Statement (.getAngle index ignored) :=
  of_decode fun _ => by simp [encode, decode, decodeCommand]
theorem disableAll (ignored : BitVec 16) : Statement (.disableAll ignored) :=
  of_decode fun _ => by simp [encode, decode, decodeCommand]
theorem init (ignored : BitVec 16) : Statement (.init ignored) :=
  of_decode fun _ => by simp [encode, decode, decodeCommand]
theorem reset : Statement .reset :=
  of_decode fun _ => rfl

end Sys2Proof.Laws.TableWord
end

