-- ==== Sys2Proof/Laws/Step.lean ====
section
/-!
SUPPORT. What one step can do, said once.
-/

namespace Sys2Proof.Machine

/-- Every operation, on every state, ends in a next state. -/
theorem exec_completes (i : Instr) (s : State) : ∃ t, exec i s = .next t := by
  cases i <;> exact ⟨_, rfl⟩

/-- No operation writes the configuration or takes an arrival, and once RESET has been processed it stays so. -/
theorem exec_frame {i : Instr} {s t : State} (h : exec i s = .next t) :
    t.cfg = s.cfg ∧ t.pending = s.pending ∧ t.started = (s.started || decide (i = .reset)) := by
  cases i with
  | servoCmd i a c =>
    obtain ⟨c1, s1, p1, _⟩ := State.receiveByte_frame s header
    obtain ⟨c2, s2, p2, _⟩ := State.receiveByte_frame (s.receiveByte header) i
    obtain ⟨c3, s3, p3, _⟩ := State.receiveByte_frame ((s.receiveByte header).receiveByte i) a
    obtain ⟨c4, s4, p4, _⟩ := State.receiveByte_frame (((s.receiveByte header).receiveByte i).receiveByte a) c
    cases h
    simp [c1, c2, c3, c4, s1, s2, s3, s4, p1, p2, p3, p4]
  | _ => cases h; simp

/-- The step under an admitted configuration. -/
theorem step_of_valid {s : State} (hv : s.cfg.Valid) :
    step s = match s.pending with
      | [] => .next s
      | x :: rest => runPresented (x.present s.dstate) { s with pending := rest } :=
  if_pos hv

/-- The step under any other configuration. -/
theorem step_of_invalid {s : State} (hv : ¬ s.cfg.Valid) : step s = .refused .invalidConfiguration :=
  if_neg hv

/-- What a step that answers a next state has done: waited, taken an arrival that is no event, or run one decoded operation. -/
theorem step_cases {s t : State} (h : step s = .next t) :
    s.cfg.Valid ∧
    ((s.pending = [] ∧ t = s) ∨
      ∃ x rest, s.pending = x :: rest ∧
        ((x.present s.dstate = .nothing ∧ t = { s with pending := rest }) ∨
          ∃ w i, x.present s.dstate = .word w ∧ decode w = .ok i ∧ (s.started = true ∨ i = .reset) ∧
            exec i { s with pending := rest } = .next t)) := by
  by_cases hv : s.cfg.Valid
  · refine ⟨hv, ?_⟩
    rw [step_of_valid hv] at h
    cases hp : s.pending with
    | nil => simp only [hp] at h; cases h; exact .inl ⟨rfl, rfl⟩
    | cons x rest =>
      simp only [hp] at h
      refine .inr ⟨x, rest, rfl, ?_⟩
      rcases Arrival.present_cases x s.dstate with hx | hx | ⟨w, i, hx, hd⟩
      · rw [hx] at h; cases h; exact .inl ⟨hx, rfl⟩
      · rw [hx] at h; cases h
      · simp only [hx, runPresented, hd, runInstr] at h
        split at h
        · exact .inr ⟨w, i, hx, hd, ‹_›, h⟩
        · cases h
  · rw [step_of_invalid hv] at h
    cases h

/-- The step on an arrival that presents a decodable word. -/
theorem step_of_word {s : State} {x : Arrival} {rest : List Arrival} {w : PortWord} {i : Instr}
    (hv : s.cfg.Valid) (hp : s.pending = x :: rest) (hx : x.present s.dstate = .word w) (hd : decode w = .ok i) :
    step s = runInstr i { s with pending := rest } := by
  rw [step_of_valid hv, hp]
  simp only [hx, runPresented, hd]

/-- The step on a byte, in the terms of the byte's reception. -/
theorem step_of_byte {s : State} {b : Byte} {rest : List Arrival}
    (hv : s.cfg.Valid) (hs : s.started = true) (hp : s.pending = .rx b :: rest) :
    step s = .next (State.receiveByte { s with pending := rest } b) := by
  have hx : (Arrival.rx b).present s.dstate = .word (.selector (s.dstate.code ++ b)) := rfl
  rw [step_of_word hv hp hx rfl]
  by_cases hb : b = header <;> cases s.dstate <;>
    simp [runInstr, hs, decodeSelector, DState.code, hb, exec, execHdrAccept, execHdrDrop, execIdxStore, execAngStore,
      execCsumFinal, State.receiveByte]

/-! ### Runs -/

/-- The host's run of the machine is `runSteps`. -/
theorem core_run_eq (k : Nat) (s : State) : Host.Core.run Sys2Proof.core k s = runSteps k s := by
  induction k generalizing s with
  | zero => rfl
  | succ k ih =>
    cases h : step s with
    | next t =>
      have h' : Sys2Proof.core.step s = .next t := h
      simp only [Host.Core.run, runSteps, h, h']
      exact ih t
    | fault r => exact nomatch r
    | refused r =>
      have h' : Sys2Proof.core.step s = .refused r := h
      simp only [Host.Core.run, runSteps, h, h']
      rfl

/-- A run whose first step takes a byte. -/
theorem runSteps_byte (k : Nat) {s : State} (b : Byte) (rest : List Arrival)
    (hv : s.cfg.Valid) (hs : s.started = true) :
    runSteps (k + 1) { s with pending := .rx b :: rest } = runSteps k { s.receiveByte b with pending := rest } := by
  have h : step { s with pending := .rx b :: rest } = _ := step_of_byte hv hs rfl
  simp only [runSteps, h, State.receiveByte_withPending]

end Sys2Proof.Machine
end

