-- ==== Sys2Proof/Tests/Slice0.lean ====
section
/-!
SUPPORT. Tests of the model on the spec's own vectors (95_test_vectors.md; a theorem's comment names the vector), a refused term
for every well-formedness check, and for every statement with hypotheses a witness that meets them all.
-/

namespace Sys2Proof.Tests

open Sys2Proof Sys2Proof.Machine

/-! ### Helpers -/

/-- The next state, where there is one. -/
def after? : Host.Outcome State Fault Refusal → Option State
  | .next s => some s
  | .fault _ => none
  | .refused _ => none

/-- The refusal, where there is one. -/
def refusal? : Host.Outcome State Fault Refusal → Option Refusal
  | .next _ => none
  | .fault _ => none
  | .refused r => some r

/-- The reset state under `REF`, its trace set aside, with a decoder state and a packet. -/
def at' (d : DState) (p0 p1 p2 p3 : Byte) : State :=
  { State.reset with dstate := d, packet := ⟨p0, p1, p2, p3⟩, trace := [] }

/-- The configuration `FULL` of section 1. -/
def full : Config := ⟨6, 0, 4095, 50, [90#8, 90#8, 90#8, 90#8, 90#8, 90#8], [0, 0, 0, 0, 0, 0]⟩

/-- One step on a table word, from a given state. -/
def run1 (s : State) (nbits w : Nat) : Option State := after? (step (s.withFetchWord nbits w))

/-! ### Well-formedness -/

theorem test_wf_refuses_header_as_noise : (Instr.hdrDrop 0xFF#8).wf = false := by decide
theorem test_wf_accepts_other_noise : (Instr.hdrDrop 0xFE#8).wf = true := by decide
theorem test_valid_reference : Config.reference.Valid := by decide
theorem test_valid_full : full.Valid := by decide
theorem test_valid_refuses_no_servo :
    ¬ ({ full with servoCount := 0, initAngles := [], trimOffsets := [] } : Config).Valid := by decide
theorem test_valid_refuses_too_many_servos : ¬ ({ full with
    servoCount := 257, initAngles := List.replicate 257 0#8, trimOffsets := List.replicate 257 0 } : Config).Valid := by
  intro h
  exact absurd h.1.2 (by decide)
theorem test_valid_refuses_reversed_pulses : ¬ ({ full with minPulse := 600, maxPulse := 150 } : Config).Valid := by decide
theorem test_valid_refuses_wide_pulse : ¬ ({ full with maxPulse := 4096 } : Config).Valid := by decide
theorem test_valid_refuses_short_angles : ¬ ({ full with initAngles := [90#8] } : Config).Valid := by decide
theorem test_valid_refuses_large_angle :
    ¬ ({ full with initAngles := [90#8, 90#8, 90#8, 90#8, 90#8, 181#8] } : Config).Valid := by decide
theorem test_valid_refuses_short_trims : ¬ ({ full with trimOffsets := [0] } : Config).Valid := by decide
theorem test_valid_refuses_large_trim :
    ¬ ({ full with trimOffsets := [0, 0, 0, 0, 0, 128] } : Config).Valid := by decide
theorem test_valid_refuses_small_trim :
    ¬ ({ full with trimOffsets := [-129, 0, 0, 0, 0, 0] } : Config).Valid := by decide

/-! ### Decoding: the words of section 6, bit by bit -/

theorem test_decode_servo_cmd :
    decodeTableWord 32 0b11111111_00000010_01011010_01011011 = some (.servoCmd 2#8 90#8 91#8) := by decide
theorem test_decode_hdr_accept : decodeTableWord 10 0b00_11111111 = some .hdrAccept := by decide
theorem test_decode_hdr_drop : decodeTableWord 16 0b00_00000001 = some (.hdrDrop 1#8) := by decide
theorem test_decode_idx_store : decodeTableWord 16 0b01_00000010 = some (.idxStore 2#8) := by decide
theorem test_decode_ang_store : decodeTableWord 16 0b10_01011010 = some (.angStore 90#8) := by decide
theorem test_decode_csum_final : decodeTableWord 16 0b11_01011011 = some (.csumFinal 0x5B#8) := by decide
theorem test_decode_set_angle : decodeTableWord 24 0b00_00000010_01011010 = some (.setAngle 2#8 90#8) := by decide
theorem test_decode_get_angle : decodeTableWord 24 0b01_00000001_10000001 = some (.getAngle 1#8 0x81#8) := by decide
theorem test_decode_disable_all : decodeTableWord 24 0b10_00000000_00000001 = some (.disableAll 1#16) := by decide
theorem test_decode_init : decodeTableWord 18 0b11_10000000_00000000 = some (.init 0x8000#16) := by decide
theorem test_decode_reset : decodeTableWord 8 1 = some .reset := by decide
theorem test_decode_refuses_other_header : decode (.frame 0xFE025A5B#32) = .error (.notAFrame 0xFE#8) := by decide
theorem test_decode_refuses_reset_low : decode (.resetPin 0#1) = .error .resetNotAsserted := by decide
theorem test_decode_refuses_bits_above_row : decodeTableWord 16 0x400 = none := by decide

/-! ### The decoder (section 3) -/

/-- V1a. -/
theorem test_hdr_accept : (run1 (at' .awaitingHeader 1 2 3 4) 16 0x0FF).map (fun t => (t.dstate, t.packet, t.trace)) =
    some (.awaitingIndex, ⟨0xFF, 2, 3, 4⟩, []) := by decide
/-- V1c: 0xFE is no header. -/
theorem test_hdr_drop : run1 (at' .awaitingHeader 1 2 3 4) 16 0x0FE = some (at' .awaitingHeader 1 2 3 4) := by decide
/-- V1f: 0xFF as an index does not restart the frame. -/
theorem test_idx_store : (run1 (at' .awaitingIndex 0xFF 2 3 4) 16 0x1FF).map (fun t => (t.dstate, t.packet, t.trace)) =
    some (.awaitingAngle, ⟨0xFF, 0xFF, 3, 4⟩, []) := by decide
/-- V1h: 0xFF as an angle. -/
theorem test_ang_store : (run1 (at' .awaitingAngle 0xFF 2 3 4) 16 0x2FF).map (fun t => (t.dstate, t.packet, t.trace)) =
    some (.awaitingChecksum, ⟨0xFF, 2, 0xFF, 4⟩, []) := by decide
/-- V1i. -/
theorem test_csum_final_ok : (run1 (at' .awaitingChecksum 0xFF 2 90 4) 16 0x35B).map
      (fun t => (t.dstate, t.packet, t.curAngle, t.trace)) =
    some (.awaitingHeader, ⟨0xFF, 2, 90, 0x5B⟩, [90, 45, 90, 180, 10, 170],
      [.pwmSetChannelPulse 2 0 375, .status .ok]) := by decide
/-- V7: both fields out of range, one event. -/
theorem test_csum_final_range : (run1 (at' .awaitingChecksum 0xFF 200 200 4) 16 0x38F).map (fun t => (t.dstate, t.trace)) =
    some (.awaitingHeader, [.status .errRange]) := by decide
/-- V11: index `N - 1` and angle 180 are valid. -/
theorem test_servo_cmd_edges : (run1 (at' .awaitingHeader 1 2 3 4) 32 0xFF05B4B8).map
      (fun t => (t.dstate, t.curAngle, t.trace)) =
    some (.awaitingHeader, [90, 45, 0, 180, 10, 180], [.pwmSetChannelPulse 5 0 600, .status .ok]) := by decide
/-- V8: the checksum is tested before the range. -/
theorem test_servo_cmd_checksum_first : (run1 (at' .awaitingHeader 1 2 3 4) 32 0xFF065A00).map
      (fun t => (t.dstate, t.curAngle, t.trace)) =
    some (.awaitingHeader, [90, 45, 0, 180, 10, 170], [.status .errChecksum]) := by decide
/-- Section 3.3: the checksum's arithmetic. -/
theorem test_checksum_table :
    checksum ⟨0xFF, 0, 0, 0⟩ = 0xFF ∧ checksum ⟨0xFF, 0, 1, 0⟩ = 0x00 ∧ checksum ⟨0xFF, 2, 90, 0⟩ = 0x5B ∧
    checksum ⟨0xFF, 5, 180, 0⟩ = 0xB8 ∧ checksum ⟨0xFF, 255, 255, 0⟩ = 0xFD ∧ checksum ⟨0xFF, 200, 200, 0⟩ = 0x8F := by decide

/-! ### The actuator (section 4) -/

/-- A1: the trim takes the angle below 0. -/
theorem test_set_angle_below_zero : (run1 (at' .awaitingHeader 1 2 3 4) 24 0x00000).map (fun t => (t.curAngle, t.trace)) =
    some ([0, 45, 0, 180, 10, 170], [.pwmSetChannelPulse 0 0 150]) := by decide
/-- A33: the largest trimmed angle, stored as given. -/
theorem test_set_angle_above_range : (run1 (at' .awaitingHeader 1 2 3 4) 24 0x005FF).map (fun t => (t.curAngle, t.trace)) =
    some ([90, 45, 0, 180, 10, 255], [.pwmSetChannelPulse 5 0 600]) := by decide
/-- A34. -/
theorem test_get_angle : (run1 (at' .awaitingAngle 1 2 3 4) 24 0x10100).map (fun t => (t.dstate, t.trace)) =
    some (.awaitingAngle, [.angleResponse 45]) := by decide
/-- A35: the sentinel. -/
theorem test_get_angle_sentinel : (run1 (at' .awaitingHeader 1 2 3 4) 24 0x10600).map State.trace =
    some [.angleResponse 0] := by decide
/-- A38. -/
theorem test_disable_all : (run1 (at' .awaitingAngle 1 2 3 4) 24 0x20000).map (fun t => (t.dstate, t.curAngle, t.trace)) =
    some (.awaitingAngle, [90, 45, 0, 180, 10, 170],
      [.pwmSetChannelPulse 0 0 0, .pwmSetChannelPulse 1 0 0, .pwmSetChannelPulse 2 0 0, .pwmSetChannelPulse 3 0 0,
        .pwmSetChannelPulse 4 0 0, .pwmSetChannelPulse 5 0 0]) := by decide
/-- A39, in the middle of a frame (P5, step 10). -/
theorem test_init : (run1 { at' .awaitingAngle 0xFF 3 3 4 with curAngle := [1, 2, 3, 4, 5, 6] } 24 0x30000).map
      (fun t => (t.dstate, t.packet, t.curAngle, t.trace)) =
    some (.awaitingAngle, ⟨0xFF, 3, 3, 4⟩, [90, 45, 0, 180, 10, 170],
      [.pwmSetFrequency 50, .pwmSetChannelPulse 0 0 362, .pwmSetChannelPulse 1 0 287, .pwmSetChannelPulse 2 0 150,
        .pwmSetChannelPulse 3 0 600, .pwmSetChannelPulse 4 0 150, .pwmSetChannelPulse 5 0 600]) := by decide
/-- Section 1: the state and the events of RESET. -/
theorem test_reset : (run1 { at' .awaitingChecksum 1 2 3 4 with curAngle := [1, 2, 3, 4, 5, 6], started := false } 8 1).map
      (fun t => (t.dstate, t.curAngle, t.started, decide (t.trace = State.reset.trace))) =
    some (.awaitingHeader, [90, 45, 0, 180, 10, 170], true, true) := by decide
/-- Section 1: what the trace of the reset state holds. -/
theorem test_reset_state_trace : State.reset.trace =
    [.pwmSetFrequency 50, .pwmSetChannelPulse 0 0 362, .pwmSetChannelPulse 1 0 287, .pwmSetChannelPulse 2 0 150,
      .pwmSetChannelPulse 3 0 600, .pwmSetChannelPulse 4 0 150, .pwmSetChannelPulse 5 0 600] := by decide
/-- Section 4.3, configuration `FULL`. -/
theorem test_pulse_full : pulseOf full 1 = 22 ∧ pulseOf full 89 = 2024 ∧ pulseOf full 90 = 2047 ∧ pulseOf full 91 = 2070 ∧
    pulseOf full 179 = 4072 ∧ pulseOf full 180 = 4095 := by decide
/-- Section 4.1, rows A5, A19, A24: truncation and both ends of the trim. -/
theorem test_pulse_reference : pulse Config.reference 0 180 = 587 ∧ pulse Config.reference 4 0 = 150 ∧
    pulse Config.reference 5 0 = 467 := by decide

/-! ### The step, the ports -/

/-- R54, D21. -/
theorem test_two_events_refused :
    refusal? (step { State.reset with pending := [.cycle { InputPins.rx 1 with cmdValid := true }] }) =
      some .simultaneousEvents := by decide
/-- R110: no event before the first RESET. -/
theorem test_before_reset_refused :
    refusal? (step { State.reset with started := false, pending := [.rx 0xFF] }) = some .beforeFirstReset := by decide
/-- R6. -/
theorem test_invalid_configuration_refused :
    refusal? (step (State.resetWith { full with maxPulse := 4096 })) = some .invalidConfiguration := by decide
/-- R49: the texts, as characters. -/
theorem test_status_texts :
    StatusCode.ok.text = "OK".toList.map (fun c => BitVec.ofNat 8 c.toNat) ∧
    StatusCode.errChecksum.text = "ERR: Checksum mismatch".toList.map (fun c => BitVec.ofNat 8 c.toNat) ∧
    StatusCode.errRange.text = "ERR: Invalid data range".toList.map (fun c => BitVec.ofNat 8 c.toNat) := by decide
/-- R53: a successful finalize on the output pins. -/
theorem test_port_cycles : portCycles [.pwmSetChannelPulse 2 0 375, .status .ok] =
    [⟨true, none, some (.setChannelPulse 2 0 375), none⟩, ⟨true, some 0b00#2, none, none⟩] := by decide

/-! ### Witnesses: for every statement with hypotheses, a state and operands that meet them all -/

/-- A state whose packet is ready to be finalized by the byte 0x5B. -/
def ready : State := at' .awaitingChecksum 0xFF 2 90 0

/-- The reset state with one arrival. -/
def given (x : Arrival) : State := { State.reset with pending := [x] }

/-- HdrAcceptOpensAFrame, HdrDropChangesNothing, IdxStoreWritesCellOne, AngStoreWritesCellTwo: a state of the row's own. -/
theorem witness_own_row :
    State.reset.dstate = .awaitingHeader ∧ 0xFE#8 ≠ 0xFF#8 ∧ (at' .awaitingIndex 0xFF 2 3 4).dstate = .awaitingIndex ∧
    (at' .awaitingAngle 0xFF 2 3 4).dstate = .awaitingAngle := by decide
/-- CsumFinalRejectsBadChecksum: one off. -/
theorem witness_bad_checksum :
    ready.dstate = .awaitingChecksum ∧
    (ready.packet.cell0.toNat + ready.packet.cell1.toNat + ready.packet.cell2.toNat) % 256 ≠ (0x5C#8).toNat := by decide
/-- CsumFinalRejectsBadRange: index `N`. -/
theorem witness_bad_range_index :
    (let s := at' .awaitingChecksum 0xFF 6 90 0
     s.dstate = .awaitingChecksum ∧
     (s.packet.cell0.toNat + s.packet.cell1.toNat + s.packet.cell2.toNat) % 256 = (0x5F#8).toNat ∧
     s.cfg.servoCount ≤ s.packet.cell1.toNat) := by decide
/-- CsumFinalRejectsBadRange: angle 181. -/
theorem witness_bad_range_angle :
    (let s := at' .awaitingChecksum 0xFF 0 181 0
     s.dstate = .awaitingChecksum ∧
     (s.packet.cell0.toNat + s.packet.cell1.toNat + s.packet.cell2.toNat) % 256 = (0xB4#8).toNat ∧
     180 < s.packet.cell2.toNat) := by decide
/-- CsumFinalDrivesTheServo: index `N - 1`, angle 180. -/
theorem witness_good_packet :
    (let s := at' .awaitingChecksum 0xFF 5 180 0
     (s.packet.cell0.toNat + s.packet.cell1.toNat + s.packet.cell2.toNat) % 256 = (0xB8#8).toNat ∧
     s.packet.cell1.toNat < s.cfg.servoCount ∧ s.packet.cell2.toNat ≤ 180) := by decide
/-- ByteSelectsItsOperation: a state of each of the four kinds. -/
theorem witness_byte_arrives (d : DState) (b : Byte) :
    (let s := { given (.rx b) with dstate := d }
     s.cfg.Valid ∧ s.started = true ∧ s.pending = [.rx b] ∧ s.dstate = d) :=
  ⟨test_valid_reference, rfl, rfl, rfl⟩
/-- ValidFrameDrivesItsServo. -/
theorem witness_valid_frame :
    State.reset.dstate = .awaitingHeader ∧ (0xB8#8).toNat = (255 + (5#8).toNat + (180#8).toNat) % 256 ∧
    (5#8).toNat < State.reset.cfg.servoCount ∧ (180#8).toNat ≤ 180 := by decide
/-- BadChecksumFrameIsReported. -/
theorem witness_bad_checksum_frame :
    State.reset.dstate = .awaitingHeader ∧ (0xFB#8).toNat ≠ (255 + (2#8).toNat + (90#8).toNat) % 256 := by decide
/-- OutOfRangeFrameIsReported, by the index. -/
theorem witness_out_of_range_index :
    State.reset.dstate = .awaitingHeader ∧ (0x5F#8).toNat = (255 + (6#8).toNat + (90#8).toNat) % 256 ∧
    State.reset.cfg.servoCount ≤ (6#8).toNat := by decide
/-- OutOfRangeFrameIsReported, by the angle. -/
theorem witness_out_of_range_angle :
    State.reset.dstate = .awaitingHeader ∧ (0xB9#8).toNat = (255 + (5#8).toNat + (181#8).toNat) % 256 ∧
    180 < (181#8).toNat := by decide
/-- WholeFrameIsFourByteSteps, PlacedWordIsRunNext, BlockNeverStops (nothing delivered), DisableAllDeenergisesEveryChannel. -/
theorem witness_ready_block :
    State.reset.cfg.Valid ∧ State.reset.started = true ∧ State.reset.pending = [] ∧ (Instr.hdrDrop 0#8).wf = true := by decide
/-- NoiseIsDroppedWithoutTrace. -/
theorem witness_noise :
    State.reset.cfg.Valid ∧ State.reset.started = true ∧ State.reset.dstate = .awaitingHeader ∧
    ∀ b ∈ [0x00#8, 0xFE#8], b ≠ 0xFF#8 := by decide
/-- ThreeBytesResynchronise. -/
theorem witness_three_bytes :
    ready.cfg.Valid ∧ ready.started = true ∧ (0x00#8) ≠ 0xFF#8 ∧ (0xFE#8) ≠ 0xFF#8 ∧ (0x7F#8) ≠ 0xFF#8 := by decide
/-- StatusEventsCountFinalizes, FinalizingOperationsFrame (both forms), LocalOperationsFrame (all four operations). -/
theorem witness_operations_answer :
    (∃ t, exec (.csumFinal 0x5B#8) ready = .next t) ∧ (∃ t, exec (.servoCmd 2#8 90#8 91#8) ready = .next t) ∧
    (∃ t, exec (.setAngle 5#8 180#8) ready = .next t) ∧ (∃ t, exec (.getAngle 5#8 0#8) ready = .next t) ∧
    (∃ t, exec (.disableAll 0#16) ready = .next t) ∧ (∃ t, exec (.init 0#16) ready = .next t) :=
  ⟨⟨_, rfl⟩, ⟨_, rfl⟩, ⟨_, rfl⟩, ⟨_, rfl⟩, ⟨_, rfl⟩, ⟨_, rfl⟩⟩
/-- LocalOperationsFrame: each of the four is a local operation. -/
theorem witness_local_operations :
    (Instr.setAngle 5#8 180#8).isLocal = true ∧ (Instr.getAngle 5#8 0#8).isLocal = true ∧
    (Instr.disableAll 0#16).isLocal = true ∧ (Instr.init 0#16).isLocal = true := by decide
/-- LocalOperationsFrame, INIT's clause: an array longer than `N`, its cell `N`. -/
theorem witness_cell_past_the_servos :
    (let s := { ready with curAngle := [1, 2, 3, 4, 5, 6, 7] }
     s.cfg.servoCount ≤ 6 ∧ (after? (exec (.init 0#16) s)).map (fun t => t.curAngle[6]?) = some (some 7#8)) := by decide
/-- SetAngleRunsTheSixSteps: the lowest trim, an angle above 180. -/
theorem witness_set_angle :
    (4#8).toNat < State.reset.cfg.servoCount ∧ State.reset.cfg.trimOffsets[(4#8).toNat]? = some (-128) ∧
    ((127 : Nat) : Int) = max 0 (min 180 (((255#8).toNat : Int) + -128)) := by decide
/-- BadIndexIsSilentlyIgnored and the second clause of GetAngleAnswersStoredAngle: index `N`. -/
theorem witness_bad_index : State.reset.cfg.servoCount ≤ (6#8).toNat := by decide
/-- SafetyClampBoundsAnyTrim: below, above, and at both ends of the range. -/
theorem witness_clamp :
    trimmed Config.reference 0#8 4#8 < 0 ∧ 180 < trimmed Config.reference 1#8 171#8 ∧
    trimmed Config.reference 0#8 5#8 = 0 ∧ trimmed Config.reference 1#8 170#8 = 180 := by decide
/-- ConversionIsMonotoneAndExactAtEnds, where the bounds meet (configuration `FLAT`). -/
theorem witness_flat_bounds : ({ full with minPulse := 300, maxPulse := 300 } : Config).minPulse ≤ 300 := by decide
/-- ActuatorWidthsSuffice, PulseStaysBetweenItsBounds: the widest product. -/
theorem witness_widths : full.Valid ∧ (5#8).toNat < full.servoCount ∧ safeAngle full 5#8 180#8 * (4095 - 0) = 737100 := by
  decide
/-- RepeatedSetAngleRepeatsItsEvent and SetAngleReenergisesItsChannel: the last servo. -/
theorem witness_last_servo : State.reset.cfg.Valid ∧ (5#8).toNat < State.reset.cfg.servoCount := by decide
/-- GetAngleAnswersStoredAngle, first clause: the last cell. -/
theorem witness_get_angle :
    (5#8).toNat < State.reset.cfg.servoCount ∧ State.reset.curAngle[(5#8).toNat]? = some 170#8 := by decide
/-- DisableAllDeenergisesEveryChannel: the last channel and the first that is no servo's. -/
theorem witness_channels :
    State.reset.cfg.Valid ∧ (5#8).toNat < State.reset.cfg.servoCount ∧ State.reset.cfg.servoCount ≤ (6#8).toNat := by decide
/-- InitDrivesEveryServo, GetAngleAfterInit, ResetRestartsTheBlock. -/
theorem witness_init :
    ready.cfg.Valid ∧ ready.curAngle.length = ready.cfg.servoCount ∧
    ready.cfg.initAngles[(5#8).toNat]? = some 170#8 := by decide
/-- ResetForgetsThePast: two states with different pasts. -/
theorem witness_two_pasts :
    ready.cfg.Valid ∧ State.reset.cfg = ready.cfg ∧ ready.curAngle.length = ready.cfg.servoCount ∧
    State.reset.curAngle.length = ready.cfg.servoCount ∧ ready ≠ State.reset := by decide
/-- ConfigurationIsNeverWritten, EveryStepKeepsTheInvariant: a step that answers. -/
theorem witness_step_answers : ∃ t, step (given (.rx 0xFF#8)) = .next t := ⟨_, rfl⟩
/-- EveryStepKeepsTheInvariant: a state in the middle of a frame meets the invariant. -/
theorem witness_invariant : Inv (at' .awaitingChecksum 0xFF 2 90 0) :=
  ⟨test_valid_reference, rfl, fun _ => rfl, fun _ h => nomatch h⟩
/-- InvariantHoldsAfterReset: an admitted configuration. -/
theorem witness_admitted_configuration : full.Valid := by decide
/-- StoredAnglesStayInRange: SETANGLE at 180. -/
theorem witness_angles_in_range :
    ready.cfg.Valid ∧ (∀ a ∈ ready.curAngle, a.toNat ≤ angleMax) ∧ (180#8).toNat ≤ angleMax ∧
    (after? (exec (.setAngle 2#8 180#8) ready)).isSome = true := by decide
/-- DecodeInvertsEncode and EncodeInvertsDecode. -/
theorem witness_word_decodes : (Instr.hdrDrop 0xFE#8).wf = true ∧ decode (.selector 0x0FE#10) = .ok (.hdrDrop 0xFE#8) := by decide
/-- CommandPortSelectsItsOperation: each of the four codes. -/
theorem witness_command_arrives (op : BitVec 2) :
    (let s := given (.cycle (.cmd op 5#8 180#8))
     s.cfg.Valid ∧ s.started = true ∧ s.pending = [.cycle (.cmd op 5#8 180#8)]) ∧
    (0#2).toNat = 0 ∧ (1#2).toNat = 1 ∧ (2#2).toNat = 2 ∧ (3#2).toNat = 3 :=
  ⟨⟨test_valid_reference, rfl, rfl⟩, rfl, rfl, rfl, rfl⟩
/-- StepRunsTheDecodedOperation: after RESET, and RESET before it. -/
theorem witness_decoded_word :
    (let s := given (.rx 0xFF#8)
     s.cfg.Valid ∧ s.pending = [.rx 0xFF#8] ∧ (Arrival.rx 0xFF#8).present s.dstate = .word (.selector 0x0FF#10) ∧
     decode (.selector 0x0FF#10) = .ok .hdrAccept ∧ s.started = true) ∧
    (Arrival.cycle .resetOn).present .awaitingHeader = .word (.resetPin 1#1) ∧ decode (.resetPin 1#1) = .ok .reset := by decide
/-- BlockNeverStops: an arrival that is no clash. -/
theorem witness_arrival_no_clash :
    (let s := given (.rx 0#8)
     s.cfg.Valid ∧ s.started = true ∧ s.pending = [.rx 0#8] ∧ (Arrival.rx 0#8).present s.dstate ≠ .clash) := by decide
/-- TwoEventsAtOnceAreRefused: each pair. -/
theorem witness_two_events :
    (let p := { InputPins.rx 1#8 with cmdValid := true }
     (given (.cycle p)).cfg.Valid ∧ (given (.cycle p)).pending = [.cycle p] ∧ p.rxValid = true ∧ p.cmdValid = true) ∧
    (let p := { InputPins.rx 1#8 with rst := true }
     p.rst = true ∧ p.rxValid = true) ∧
    (let p := { InputPins.cmd 0#2 0#8 0#8 with rst := true }
     p.rst = true ∧ p.cmdValid = true) := by decide
/-- UnreadyBlockIsRefused: a configuration not admitted, and a byte before the first RESET. -/
theorem witness_unready :
    ¬ (State.resetWith { full with maxPulse := 4096 }).cfg.Valid ∧
    (let s := { given (.rx 0xFF#8) with started := false }
     s.cfg.Valid ∧ s.started = false ∧ s.pending = [.rx 0xFF#8] ∧
     (Arrival.rx 0xFF#8).present s.dstate = .word (.selector 0x0FF#10) ∧
     decode (.selector 0x0FF#10) = .ok .hdrAccept ∧ Instr.hdrAccept ≠ .reset) := by decide
/-- IdleCycleChangesNothing: data on the pins, nothing valid. -/
theorem witness_idle_cycle :
    (let p := { InputPins.idle with rxData := 0xFF#8, cmdOp := 3#2 }
     (given (.cycle p)).cfg.Valid ∧ (given (.cycle p)).pending = [.cycle p] ∧
     p.rst = false ∧ p.rxValid = false ∧ p.cmdValid = false) := by decide
/-- UnfilledBufferIsUnobservable: two states that differ in every unfilled cell, and a step of the first. -/
theorem witness_unfilled :
    SameButUnfilled { given (.rx 0xFF#8) with packet := ⟨1, 2, 3, 4⟩ } { given (.rx 0xFF#8) with packet := ⟨5, 6, 7, 8⟩ } ∧
    ∃ t, step { given (.rx 0xFF#8) with packet := ⟨1, 2, 3, 4⟩ } = .next t :=
  ⟨⟨rfl, rfl, rfl, rfl, rfl, rfl, rfl, fun h => absurd rfl h, by decide, by decide⟩, ⟨_, rfl⟩⟩
/-- StoredAnglesOnlyReachGetAngle. -/
theorem witness_not_get_angle :
    (∀ idx x, Instr.setAngle 5#8 180#8 ≠ .getAngle idx x) ∧ ∃ t, exec (.setAngle 5#8 180#8) ready = .next t :=
  ⟨by simp, _, rfl⟩
/-- PinsTellEventsApart. -/
theorem witness_pins :
    full.Valid ∧ full.pwmFreq < 2 ^ 16 ∧ EventSafe full (.pwmSetChannelPulse 5 0 4095) ∧
    EventSafe full (.pwmSetFrequency 50) :=
  ⟨by decide, by decide, ⟨by decide, rfl, .inr ⟨by decide, by decide⟩⟩, rfl⟩

end Sys2Proof.Tests
end

section
/-!
The byte operations of the decoder (40_decoder.md sections 1 and 2): each operation's meaning, said once through the named
transition it performs, and from it the statements about the rows of the transition table.
-/

namespace Sys2Proof.Machine

/-! ### What each byte operation performs -/

@[simp] theorem exec_hdrAccept (s : State) : exec .hdrAccept s = .next s.acceptHeader := rfl
@[simp] theorem exec_hdrDrop (b : Byte) (s : State) : exec (.hdrDrop b) s = .next s := rfl
@[simp] theorem exec_idxStore (b : Byte) (s : State) : exec (.idxStore b) s = .next (s.storeIndex b) := rfl
@[simp] theorem exec_angStore (b : Byte) (s : State) : exec (.angStore b) s = .next (s.storeAngle b) := rfl
@[simp] theorem exec_csumFinal (b : Byte) (s : State) : exec (.csumFinal b) s = .next (s.closeFrame b) := rfl

/-! ### The outcome of finalize once the fourth byte is stored -/

theorem finalOutcome_storeChecksum_eq_errChecksum_iff (c : Config) (p : Packet) (b : Byte) :
    finalOutcome c { p with cell3 := b } = .errChecksum ↔
      (p.cell0.toNat + p.cell1.toNat + p.cell2.toNat) % 256 ≠ b.toNat :=
  (finalOutcome_eq_errChecksum_iff c { p with cell3 := b }).trans (not_congr (checksum_eq_iff p b))

theorem finalOutcome_storeChecksum_eq_errRange_iff (c : Config) (p : Packet) (b : Byte) :
    finalOutcome c { p with cell3 := b } = .errRange ↔
      (p.cell0.toNat + p.cell1.toNat + p.cell2.toNat) % 256 = b.toNat ∧
        (c.servoCount ≤ p.cell1.toNat ∨ 180 < p.cell2.toNat) :=
  (finalOutcome_eq_errRange_iff c { p with cell3 := b }).trans (and_congr_left' (checksum_eq_iff p b))

/-- The rejecting arms of finalize (R60, R61) differ in the reported code alone. -/
theorem State.closeFrame_of_rejected {s : State} {b : Byte} {k : StatusCode}
    (h : finalOutcome s.cfg { s.packet with cell3 := b } = k) (hk : k ≠ .ok) :
    s.closeFrame b =
      { s with
        packet := { s.packet with cell3 := b }, dstate := .awaitingHeader, trace := s.trace ++ [.status k] } := by
  subst h
  obtain ⟨_, _, rfl, hclose⟩ | ⟨hok, _⟩ := s.closeFrame_cases b
  · exact hclose
  · exact absurd hok hk

end Sys2Proof.Machine

namespace Sys2Proof.Proofs.Decoder

open Sys2Proof.Machine

/-- Settles O5: the checksum is tested before the range, so the outcome is `errChecksum` whatever the index and the angle. -/
theorem csumFinalRejectsBadChecksum : Obligations.CsumFinalRejectsBadChecksum := by
  intro s b _ hsum
  have hout := (finalOutcome_storeChecksum_eq_errChecksum_iff s.cfg s.packet b).2 hsum
  rw [exec_csumFinal, State.closeFrame_of_rejected hout (by decide)]

/-- Settles O6: with the checksum right, a range not met makes the outcome `errRange`. -/
theorem csumFinalRejectsBadRange : Obligations.CsumFinalRejectsBadRange := by
  intro s b _ hsum hrange
  have hout := (finalOutcome_storeChecksum_eq_errRange_iff s.cfg s.packet b).2 ⟨hsum, hrange⟩
  rw [exec_csumFinal, State.closeFrame_of_rejected hout (by decide)]

/-- Settles O1: HDR_ACCEPT is the transition `State.acceptHeader`. -/
theorem hdrAcceptOpensAFrame : Obligations.HdrAcceptOpensAFrame :=
  fun s _ => exec_hdrAccept s

/-- Settles O2: HDR_DROP is the identity. -/
theorem hdrDropChangesNothing : Obligations.HdrDropChangesNothing :=
  fun s b _ _ => exec_hdrDrop b s

/-- Settles O3: IDX_STORE is the transition `State.storeIndex`, which tests nothing. -/
theorem idxStoreWritesCellOne : Obligations.IdxStoreWritesCellOne :=
  fun s b _ => exec_idxStore b s

/-- Settles O4: ANG_STORE is the transition `State.storeAngle`, which tests nothing. -/
theorem angStoreWritesCellTwo : Obligations.AngStoreWritesCellTwo :=
  fun s b _ => exec_angStore b s

end Sys2Proof.Proofs.Decoder
end


section
/-!
The actuator's local operations (41_actuator.md): what GETANGLE returns for an index that selects a servo and for one that
selects none, and what the clamp makes of a trimmed angle.
-/

namespace Sys2Proof.Machine

@[simp] theorem exec_getAngle (i x : Byte) (s : State) :
    exec (.getAngle i x) s = .next (s.emit [.angleResponse (s.angleOrSentinel i)]) := rfl

/-! ### The two cases of GETANGLE's answer -/

theorem State.readAngle_of_getElem? {s : State} {i v : Byte} (h : s.curAngle[i.toNat]? = some v) :
    s.readAngle i = v := by
  rw [State.readAngle, List.getD_eq_getElem?_getD, h, Option.getD_some]

theorem State.angleOrSentinel_of_lt {s : State} {i : Byte} (h : i.toNat < s.cfg.servoCount) :
    s.angleOrSentinel i = s.readAngle i :=
  if_pos ((indexValid_iff s.cfg i).2 h)

theorem State.angleOrSentinel_of_le {s : State} {i : Byte} (h : s.cfg.servoCount ≤ i.toNat) :
    s.angleOrSentinel i = 0#8 :=
  if_neg (mt (indexValid_iff s.cfg i).1 (Nat.not_lt.2 h))

/-! ### The three ranges of the clamp -/

theorem safeAngle_of_trimmed_neg {c : Config} {i a : Byte} (h : trimmed c i a < 0) : safeAngle c i a = 0 := by
  have := safeAngle_cast c i a
  omega

theorem safeAngle_of_lt_trimmed {c : Config} {i a : Byte} (h : 180 < trimmed c i a) : safeAngle c i a = 180 := by
  have := safeAngle_cast c i a
  omega

theorem safeAngle_of_trimmed_mem {c : Config} {i a : Byte} (h₀ : 0 ≤ trimmed c i a) (h : trimmed c i a ≤ 180) :
    (safeAngle c i a : Int) = trimmed c i a := by
  rw [safeAngle_cast, min_eq_right h, max_eq_right h₀]

end Sys2Proof.Machine

namespace Sys2Proof.Proofs.Actuator

open Sys2Proof.Machine

/-- Settles O25: the answer is the stored angle or the sentinel by the index check alone, and GETANGLE only emits. -/
theorem getAngleAnswersStoredAngle : Obligations.GetAngleAnswersStoredAngle := by
  intro s i x v
  constructor
  · intro hlt hv
    have hanswer : s.angleOrSentinel i = v := (State.angleOrSentinel_of_lt hlt).trans (State.readAngle_of_getElem? hv)
    simp only [exec_getAngle, hanswer, State.emit]
  · intro hle
    simp only [exec_getAngle, State.angleOrSentinel_of_le hle, State.emit]

/-- Settles O20: the clamp by its three ranges; it precedes the conversion, so the pulse is `pulseOf` of its result. -/
theorem safetyClampBoundsAnyTrim : Obligations.SafetyClampBoundsAnyTrim :=
  fun c i a =>
    ⟨safeAngle_of_trimmed_neg, safeAngle_of_lt_trimmed, safeAngle_of_trimmed_mem, safeAngle_le c i a, rfl⟩

end Sys2Proof.Proofs.Actuator
end


section
/-!
The direct command path's index check (60_exceptions.md, R93): what SETANGLE and GETANGLE do for an index that selects no
servo.
-/

namespace Sys2Proof.Machine

@[simp] theorem exec_setAngle (i a : Byte) (s : State) : exec (.setAngle i a) s = .next (s.driveServo i a) := rfl

end Sys2Proof.Machine

namespace Sys2Proof.Proofs.Exceptions

open Sys2Proof.Machine

/-- Settles O19: SETANGLE's body is the identity on a bad index, and GETANGLE's half is the sentinel case of
`getAngleAnswersStoredAngle`. -/
theorem badIndexIsSilentlyIgnored : Obligations.BadIndexIsSilentlyIgnored := by
  intro s i a hle
  obtain ⟨-, hsentinel⟩ := Actuator.getAngleAnswersStoredAngle s i a 0#8
  constructor
  · rw [exec_setAngle, State.driveServo_of_invalid a hle]
  · exact hsentinel hle

end Sys2Proof.Proofs.Exceptions
end

section
/-!
The word formats (30_encoding.md): encoder and decoder are inverse to each other on the words that stand for an operation, and
only a frame word without the header and the reset pin at 0 stand for none.
-/

namespace Sys2Proof

/-! ### From an operation to its word and back -/

/-- What the table word reads back, the decoder reads from the word itself. -/
theorem Laws.TableWord.Statement.decode_encode {i : Instr} (h : Laws.TableWord.Statement i) (hw : i.wf = true) :
    decode (encode i) = .ok i := by
  have hread := h hw
  simp only [decodeTableWord, tableWord_nbits_toNat] at hread
  cases hd : decode (encode i) with
  | ok j =>
    rw [hd] at hread
    exact congrArg Except.ok (Option.some.inj hread)
  | error e =>
    rw [hd] at hread
    cases hread

theorem decode_encode (i : Instr) (hw : i.wf = true) : decode (encode i) = .ok i := by
  cases i with
  | servoCmd i a c => exact (Laws.TableWord.servoCmd i a c).decode_encode hw
  | hdrAccept => exact Laws.TableWord.hdrAccept.decode_encode hw
  | hdrDrop b => exact (Laws.TableWord.hdrDrop b).decode_encode hw
  | idxStore b => exact (Laws.TableWord.idxStore b).decode_encode hw
  | angStore b => exact (Laws.TableWord.angStore b).decode_encode hw
  | csumFinal b => exact (Laws.TableWord.csumFinal b).decode_encode hw
  | setAngle i a => exact (Laws.TableWord.setAngle i a).decode_encode hw
  | getAngle i x => exact (Laws.TableWord.getAngle i x).decode_encode hw
  | disableAll x => exact (Laws.TableWord.disableAll x).decode_encode hw
  | init x => exact (Laws.TableWord.init x).decode_encode hw
  | reset => exact Laws.TableWord.reset.decode_encode hw

/-! ### From a word to its operation and back, format by format -/

theorem selector_eq_of_state {x : BitVec 10} {d : BitVec 2} (h : x.extractLsb' 8 2 = d) :
    d ++ x.extractLsb' 0 8 = x := by
  rw [← h]
  exact append_rejoin (n := 2) (m := 8) x

theorem command_eq_of_op {x : BitVec 18} {o : BitVec 2} (h : x.extractLsb' 16 2 = o) :
    o ++ x.extractLsb' 8 8 ++ x.extractLsb' 0 8 = x := by
  rw [← h]
  exact command_rejoin x

theorem command_eq_of_op_wide {x : BitVec 18} {o : BitVec 2} (h : x.extractLsb' 16 2 = o) :
    o ++ x.extractLsb' 0 16 = x := by
  rw [← h]
  exact append_rejoin (n := 2) (m := 16) x

theorem two_bits_eq_three {x : BitVec 2} (h0 : x ≠ 0b00#2) (h1 : x ≠ 0b01#2) (h2 : x ≠ 0b10#2) : x = 0b11#2 :=
  (((two_bits x).resolve_left h0).resolve_left h1).resolve_left h2

/-- A frame word decodes to the operation with its three free bytes, where its first byte is the header. -/
theorem decodeFrame_eq_ok_iff (f : BitVec 32) (i : Instr) :
    decodeFrame f = .ok i ↔ f.extractLsb' 24 8 = header ∧
      i = .servoCmd (f.extractLsb' 16 8) (f.extractLsb' 8 8) (f.extractLsb' 0 8) := by
  unfold decodeFrame
  split <;> simp_all [eq_comm]

theorem encode_decodeFrame {f : BitVec 32} {i : Instr} (h : decodeFrame f = .ok i) :
    i.wf = true ∧ encode i = .frame f := by
  obtain ⟨hfirst, rfl⟩ := (decodeFrame_eq_ok_iff f i).1 h
  refine ⟨rfl, ?_⟩
  rw [encode, ← hfirst, frame_rejoin]

theorem encode_decodeSelector (x : BitVec 10) :
    (decodeSelector x).wf = true ∧ encode (decodeSelector x) = .selector x := by
  unfold decodeSelector
  split
  case isTrue h0 =>
    split
    case isTrue hb => exact ⟨rfl, congrArg _ (hb ▸ selector_eq_of_state h0)⟩
    case isFalse hb => exact ⟨bne_iff_ne.2 hb, congrArg _ (selector_eq_of_state h0)⟩
  case isFalse h0 =>
    split
    case isTrue h1 => exact ⟨rfl, congrArg _ (selector_eq_of_state h1)⟩
    case isFalse h1 =>
      split
      case isTrue h2 => exact ⟨rfl, congrArg _ (selector_eq_of_state h2)⟩
      case isFalse h2 => exact ⟨rfl, congrArg _ (selector_eq_of_state (two_bits_eq_three h0 h1 h2))⟩

theorem encode_decodeCommand (x : BitVec 18) :
    (decodeCommand x).wf = true ∧ encode (decodeCommand x) = .command x := by
  unfold decodeCommand
  split
  case isTrue h0 => exact ⟨rfl, congrArg _ (command_eq_of_op h0)⟩
  case isFalse h0 =>
    split
    case isTrue h1 => exact ⟨rfl, congrArg _ (command_eq_of_op h1)⟩
    case isFalse h1 =>
      split
      case isTrue h2 => exact ⟨rfl, congrArg _ (command_eq_of_op_wide h2)⟩
      case isFalse h2 => exact ⟨rfl, congrArg _ (command_eq_of_op_wide (two_bits_eq_three h0 h1 h2))⟩

theorem decode_resetPin_eq_ok_iff (x : BitVec 1) (i : Instr) :
    decode (.resetPin x) = .ok i ↔ x = 1#1 ∧ i = .reset := by
  rcases BitVec.eq_zero_or_eq_one x with rfl | rfl <;> simp [decode, eq_comm]

/-- A word that decodes is the one word of a well-formed operation. -/
theorem encode_decode {w : PortWord} {i : Instr} (h : decode w = .ok i) : i.wf = true ∧ encode i = w := by
  cases w with
  | frame f => exact encode_decodeFrame h
  | selector x => cases h; exact encode_decodeSelector x
  | command x => cases h; exact encode_decodeCommand x
  | resetPin x =>
    obtain ⟨rfl, rfl⟩ := (decode_resetPin_eq_ok_iff x i).1 h
    exact ⟨rfl, rfl⟩

/-! ### The words that stand for no operation -/

theorem frame_first_eq_header_iff (f : BitVec 32) : f.extractLsb' 24 8 = header ↔ f.toNat / 2 ^ 24 = 255 := by
  have hlt : f.toNat / 2 ^ 24 < 2 ^ 8 := by have := f.isLt; omega
  rw [← BitVec.toNat_inj, BitVec.extractLsb'_toNat, Nat.shiftRight_eq_div_pow, Nat.mod_eq_of_lt hlt]
  rfl

theorem decode_frame_rejected_iff (f : BitVec 32) :
    (∃ e, decode (.frame f) = .error e) ↔ f.toNat / 2 ^ 24 ≠ 255 := by
  rw [Ne, ← frame_first_eq_header_iff]
  simp only [decode, decodeFrame]
  split <;> simp_all

theorem decode_resetPin_rejected_iff (x : BitVec 1) : (∃ e, decode (.resetPin x) = .error e) ↔ x = 0#1 := by
  rcases BitVec.eq_zero_or_eq_one x with rfl | rfl <;> simp [decode]

end Sys2Proof

namespace Sys2Proof.Proofs.Encoding

/-- Settles O40: the table word of each operation is read back, and the decoder is what reads it. -/
theorem decodeInvertsEncode : Obligations.DecodeInvertsEncode :=
  decode_encode

/-- Settles O41: each format's fields, put together again, are the word. -/
theorem encodeInvertsDecode : Obligations.EncodeInvertsDecode :=
  fun _ _ => encode_decode

/-- Settles O42: selectors and commands always decode, so that the two rejecting tests are those of the other formats. -/
theorem onlyTwoKindsOfWordAreRejected : Obligations.OnlyTwoKindsOfWordAreRejected := by
  intro w
  cases w with
  | frame f => simpa using decode_frame_rejected_iff f
  | selector x => simp [decode]
  | command x => simp [decode]
  | resetPin x => simpa using decode_resetPin_rejected_iff x

/-- Settles O43: the decoder evaluated on the words of the spec. -/
theorem specWordsDecodeAsWritten : Obligations.SpecWordsDecodeAsWritten := by
  unfold Obligations.SpecWordsDecodeAsWritten
  decide

end Sys2Proof.Proofs.Encoding
end

section
/-!
The reception of bytes (40_decoder.md; 30_encoding.md section 3): where a byte leads the decoder, what it can touch, and a list
of bytes as one fold, so that a whole frame, noise and resynchronisation are lists of bytes.
-/

namespace Sys2Proof.Machine

/-! ### One byte -/

/-- Where a byte leads the decoder: the last column of the transition table of 40_decoder.md. -/
def DState.afterByte (d : DState) (b : Byte) : DState :=
  match d with
  | .awaitingHeader => if b = header then .awaitingIndex else .awaitingHeader
  | .awaitingIndex => .awaitingAngle
  | .awaitingAngle => .awaitingChecksum
  | .awaitingChecksum => .awaitingHeader

/-- How many finalizes a byte performs (R59): one where it is a fourth byte. -/
def DState.finalizes : DState → Nat
  | .awaitingChecksum => 1
  | _ => 0

@[simp] theorem DState.afterByte_header : DState.awaitingHeader.afterByte header = .awaitingIndex := rfl
theorem DState.afterByte_noise {b : Byte} (h : b ≠ header) : DState.awaitingHeader.afterByte b = .awaitingHeader :=
  if_neg h
@[simp] theorem DState.afterByte_index (b : Byte) : DState.awaitingIndex.afterByte b = .awaitingAngle := rfl
@[simp] theorem DState.afterByte_angle (b : Byte) : DState.awaitingAngle.afterByte b = .awaitingChecksum := rfl
@[simp] theorem DState.afterByte_checksum (b : Byte) : DState.awaitingChecksum.afterByte b = .awaitingHeader := rfl

/-- From `AwaitingHeader` one byte does not lead to a fourth byte. -/
@[simp] theorem DState.afterByte_ne_checksum (b : Byte) : DState.awaitingHeader.afterByte b ≠ .awaitingChecksum := by
  by_cases hb : b = header <;> simp [hb, DState.afterByte_noise]

/-- From `AwaitingHeader` two bytes do not lead to a fourth byte. -/
@[simp] theorem DState.afterByte_afterByte_ne_checksum (b b' : Byte) :
    (DState.awaitingHeader.afterByte b).afterByte b' ≠ .awaitingChecksum := by
  by_cases hb : b = header <;> simp [hb, DState.afterByte_noise]

section
variable (s : State) (b : Byte)

@[simp] theorem State.receiveByte_cfg : (s.receiveByte b).cfg = s.cfg := (s.receiveByte_frame b).1
@[simp] theorem State.receiveByte_started : (s.receiveByte b).started = s.started := (s.receiveByte_frame b).2.1
@[simp] theorem State.receiveByte_pending : (s.receiveByte b).pending = s.pending := (s.receiveByte_frame b).2.2.1
@[simp] theorem State.receiveByte_freeIx : (s.receiveByte b).freeIx = s.freeIx := (s.receiveByte_frame b).2.2.2

theorem State.receiveByte_of_header (hd : s.dstate = .awaitingHeader) : s.receiveByte header = s.acceptHeader := by
  simp [State.receiveByte, hd]

theorem State.receiveByte_of_noise {b : Byte} (hd : s.dstate = .awaitingHeader) (hb : b ≠ header) :
    s.receiveByte b = s := by
  simp [State.receiveByte, hd, hb]

theorem State.receiveByte_of_index (hd : s.dstate = .awaitingIndex) : s.receiveByte b = s.storeIndex b := by
  simp [State.receiveByte, hd]

theorem State.receiveByte_of_angle (hd : s.dstate = .awaitingAngle) : s.receiveByte b = s.storeAngle b := by
  simp [State.receiveByte, hd]

theorem State.receiveByte_of_checksum (hd : s.dstate = .awaitingChecksum) : s.receiveByte b = s.closeFrame b := by
  simp [State.receiveByte, hd]

@[simp] theorem State.receiveByte_dstate : (s.receiveByte b).dstate = s.dstate.afterByte b := by
  rcases s.receiveByte_cases b with ⟨hd, rfl, h⟩ | ⟨hd, hb, h⟩ | ⟨hd, h⟩ | ⟨hd, h⟩ | ⟨hd, h⟩
  case inr.inl => simp [h, hd, DState.afterByte_noise hb]
  all_goals simp [h, hd]

/-- Only the second byte of a frame writes `packet[1]`. -/
@[simp] theorem State.receiveByte_cell1 :
    (s.receiveByte b).packet.cell1 = if s.dstate = .awaitingIndex then b else s.packet.cell1 := by
  rcases s.receiveByte_cases b with ⟨hd, _, h⟩ | ⟨hd, _, h⟩ | ⟨hd, h⟩ | ⟨hd, h⟩ | ⟨hd, h⟩ <;> simp [h, hd]

/-- A byte changes at most the stored angle of the window's index, and that one as a fourth byte alone. -/
theorem State.receiveByte_getElem? {j : Nat} (hj : s.dstate = .awaitingChecksum → j ≠ s.packet.cell1.toNat) :
    (s.receiveByte b).curAngle[j]? = s.curAngle[j]? := by
  rcases s.receiveByte_cases b with ⟨_, _, h⟩ | ⟨_, _, h⟩ | ⟨_, h⟩ | ⟨_, h⟩ | ⟨hd, h⟩
  case inr.inr.inr.inr =>
    rw [h]
    rcases s.closeFrame_cases b with ⟨_, _, _, hclose⟩ | ⟨_, _, _, hclose⟩
    · simp [hclose]
    · simpa [hclose] using List.getElem?_set_ne (hj hd).symm
  all_goals simp [h]

end

/-! ### What is emitted -/

@[simp] theorem statusCount_append (es fs : List OutputEvent) :
    statusCount (es ++ fs) = statusCount es + statusCount fs :=
  List.countP_append

/-- From `s` to `t` events are added to the trace and none is taken back; `n` of those added are statuses. -/
def TraceGrows (n : Nat) (s t : State) : Prop := ∃ es, t.trace = s.trace ++ es ∧ statusCount es = n

theorem TraceGrows.of_trace_eq {s t : State} (h : t.trace = s.trace) : TraceGrows 0 s t :=
  ⟨[], by rw [h, List.append_nil], rfl⟩

theorem TraceGrows.trans {m n : Nat} {s t u : State} : TraceGrows m s t → TraceGrows n t u → TraceGrows (m + n) s u := by
  rintro ⟨es, hes, rfl⟩ ⟨fs, hfs, rfl⟩
  exact ⟨es ++ fs, by rw [hfs, hes, List.append_assoc], statusCount_append es fs⟩

theorem TraceGrows.isPrefix {n : Nat} {s t : State} : TraceGrows n s t → s.trace <+: t.trace := by
  rintro ⟨es, hes, _⟩
  exact ⟨es, hes.symm⟩

theorem TraceGrows.statusCount_eq {n : Nat} {s t : State} :
    TraceGrows n s t → statusCount t.trace = statusCount s.trace + n := by
  rintro ⟨es, hes, rfl⟩
  rw [hes, statusCount_append]

/-- CSUM_FINAL reports once. -/
theorem TraceGrows.closeFrame (s : State) (b : Byte) : TraceGrows 1 s (s.closeFrame b) := by
  rcases s.closeFrame_cases b with ⟨k, _, _, h⟩ | ⟨_, _, _, h⟩
  · exact ⟨[.status k], by rw [h], rfl⟩
  · exact ⟨[pulseEvent s.cfg s.packet.cell1 s.packet.cell2, .status .ok], by rw [h], rfl⟩

/-- A byte reports as often as it finalizes. -/
theorem TraceGrows.receiveByte (s : State) (b : Byte) : TraceGrows s.dstate.finalizes s (s.receiveByte b) := by
  rcases s.receiveByte_cases b with ⟨hd, _, h⟩ | ⟨hd, _, h⟩ | ⟨hd, h⟩ | ⟨hd, h⟩ | ⟨hd, h⟩ <;> rw [h, hd]
  case inr.inr.inr.inr => exact .closeFrame s b
  all_goals exact .of_trace_eq rfl

/-! ### Lists of bytes -/

/-- What a list of bytes does, one after another. -/
def State.receiveBytes (s : State) (bs : List Byte) : State := bs.foldl State.receiveByte s

@[simp] theorem State.receiveBytes_nil (s : State) : s.receiveBytes [] = s := rfl
@[simp] theorem State.receiveBytes_cons (s : State) (b : Byte) (bs : List Byte) :
    s.receiveBytes (b :: bs) = (s.receiveByte b).receiveBytes bs := rfl

/-- A list of bytes keeps whatever one byte keeps. -/
theorem State.receiveBytes_induct {R : State → Prop} (h : ∀ u b, R u → R (u.receiveByte b)) (bs : List Byte)
    {s : State} (hs : R s) : R (s.receiveBytes bs) :=
  List.foldlRecOn bs State.receiveByte hs fun u hu b _ => h u b hu

theorem State.receiveBytes_withPending (s : State) (bs : List Byte) (p : List Arrival) :
    State.receiveBytes { s with pending := p } bs = { s.receiveBytes bs with pending := p } := by
  induction bs generalizing s with
  | nil => rfl
  | cons b bs ih => rw [State.receiveBytes_cons, State.receiveByte_withPending, ih, State.receiveBytes_cons]

/-- The steps that take a list of bytes receive them. -/
theorem runSteps_bytes (bs : List Byte) (rest : List Arrival) {s : State} (hv : s.cfg.Valid) (hs : s.started = true) :
    runSteps bs.length { s with pending := bs.map .rx ++ rest } = .next { s.receiveBytes bs with pending := rest } := by
  induction bs generalizing s with
  | nil => rfl
  | cons b bs ih =>
    have hv' : (s.receiveByte b).cfg.Valid := by rwa [State.receiveByte_cfg]
    have hs' : (s.receiveByte b).started = true := by rwa [State.receiveByte_started]
    rw [List.length_cons, List.map_cons, List.cons_append, runSteps_byte bs.length b _ hv hs, ih hv' hs',
      State.receiveBytes_cons]

theorem State.receiveBytes_of_noise {s : State} {bs : List Byte} (hd : s.dstate = .awaitingHeader)
    (hbs : ∀ b ∈ bs, b ≠ header) : s.receiveBytes bs = s := by
  induction bs with
  | nil => rfl
  | cons b bs ih =>
    rw [List.forall_mem_cons] at hbs
    rw [State.receiveBytes_cons, s.receiveByte_of_noise hd hbs.1, ih hbs.2]

/-- Three bytes none of which is the header end the frame in progress and open no other. -/
theorem DState.afterByte_three {b1 b2 b3 : Byte} (h1 : b1 ≠ header) (h2 : b2 ≠ header) (h3 : b3 ≠ header) (d : DState) :
    ((d.afterByte b1).afterByte b2).afterByte b3 = .awaitingHeader := by
  cases d <;> simp [DState.afterByte_noise, h1, h2, h3]

/-- The four bytes of a frame finalize exactly once, in whatever decoder state they meet: at most three of them follow the one
that does. -/
theorem DState.finalizes_frame (d : DState) (i a : Byte) :
    d.finalizes + (d.afterByte header).finalizes + ((d.afterByte header).afterByte i).finalizes +
      (((d.afterByte header).afterByte i).afterByte a).finalizes = 1 := by
  cases d <;> simp [DState.finalizes]

/-- A frame reports once in every decoder state. -/
theorem TraceGrows.receiveFrame (s : State) (i a c : Byte) : TraceGrows 1 s (s.receiveBytes [header, i, a, c]) := by
  have h := (((receiveByte s header).trans (receiveByte _ i)).trans (receiveByte _ a)).trans (receiveByte _ c)
  simp only [State.receiveByte_dstate, s.dstate.finalizes_frame i a] at h
  exact h

/-! ### The operations that receive bytes -/

@[simp] theorem exec_servoCmd (i a c : Byte) (s : State) :
    exec (.servoCmd i a c) s = .next (s.receiveBytes [header, i, a, c]) := rfl

end Sys2Proof.Machine

namespace Sys2Proof.Proofs.Bytes

open Sys2Proof.Machine

/-- Settles O10: a step on a byte receives it, and each decoder state has its own operation for that. -/
theorem byteSelectsItsOperation : Obligations.ByteSelectsItsOperation := by
  intro s b rest hv hs hp
  rw [step_of_byte hv hs hp]
  have hb : ((0xFF#8 : Byte) = header) := rfl
  cases hd : s.dstate with
  | awaitingHeader =>
    by_cases hacc : b = header
    · simp [State.receiveByte, hacc, hb]
    · simp [State.receiveByte, hacc, hb]
  | awaitingIndex => simp [State.receiveByte]
  | awaitingAngle => simp [State.receiveByte]
  | awaitingChecksum => simp [State.receiveByte]

/-- Settles O14: both sides receive the frame's four bytes. -/
theorem wholeFrameIsFourByteSteps : Obligations.WholeFrameIsFourByteSteps := by
  intro s i a c rest hv hs
  have hdec : decode (.frame (header ++ i ++ a ++ c)) = .ok (.servoCmd i a c) :=
    decode_encode (.servoCmd i a c) rfl
  have hframe : step { s with pending := .frame i a c :: rest } =
      .next { s.receiveBytes [header, i, a, c] with pending := rest } := by
    rw [step_of_word (s := { s with pending := .frame i a c :: rest }) hv rfl rfl hdec,
      runInstr, if_pos (.inl hs), exec_servoCmd, ← State.receiveBytes_withPending]
  rw [hframe]
  exact (runSteps_bytes [header, i, a, c] rest hv hs).symm

/-- Settles O15: in `AwaitingHeader` every such byte is received without effect. -/
theorem noiseIsDroppedWithoutTrace : Obligations.NoiseIsDroppedWithoutTrace := by
  intro s bs rest hv hs hd hbs
  rw [runSteps_bytes bs rest hv hs, State.receiveBytes_of_noise hd hbs]

/-- Settles O16: by the path of the decoder's state alone. -/
theorem threeBytesResynchronise : Obligations.ThreeBytesResynchronise := by
  intro s b1 b2 b3 rest hv hs h1 h2 h3
  refine ⟨_, runSteps_bytes [b1, b2, b3] rest hv hs, ?_, rfl⟩
  simpa using DState.afterByte_three h1 h2 h3 s.dstate

end Sys2Proof.Proofs.Bytes
end

section
/-!
The actuator (41_actuator.md): the arithmetic of a pulse, what SETANGLE sends and stores, what a channel is left at, INIT.
-/

namespace Sys2Proof

/-! ### The constraints of 00_scope.md R6 by name -/

section
variable {c : Config} (h : c.Valid)
include h

theorem Config.Valid.servoCount_le : c.servoCount ≤ 256 := h.1.2
theorem Config.Valid.minPulse_le_maxPulse : c.minPulse ≤ c.maxPulse := h.2.1.1
theorem Config.Valid.maxPulse_le : c.maxPulse ≤ 4095 := h.2.1.2
theorem Config.Valid.initAngles_length : c.initAngles.length = c.servoCount := h.2.2.1.1
theorem Config.Valid.initAngles_le : ∀ a ∈ c.initAngles, a.toNat ≤ angleMax := h.2.2.1.2

end

/-- The configuration of the machine's reset state is admitted. -/
theorem Config.reference_valid : Config.reference.Valid := by decide

end Sys2Proof

namespace Sys2Proof.Machine

@[simp] theorem exec_disableAll (x : BitVec 16) (s : State) : exec (.disableAll x) s = .next s.disableOutputs := rfl
@[simp] theorem exec_init (x : BitVec 16) (s : State) : exec (.init x) s = .next s.initAll := rfl

/-! ### The conversion (41_actuator.md section 1) -/

theorem pulseOf_sub_minPulse (c : Config) (x : Nat) :
    pulseOf c x - c.minPulse = x * (c.maxPulse - c.minPulse) / 180 := by
  rw [pulseOf, Nat.add_sub_cancel_left]

theorem pulseOf_zero (c : Config) : pulseOf c 0 = c.minPulse := by
  simp [pulseOf]

theorem pulseOf_angleMax {c : Config} (h : c.minPulse ≤ c.maxPulse) : pulseOf c 180 = c.maxPulse := by
  rw [pulseOf, Nat.mul_div_cancel_left _ (by decide), Nat.add_sub_cancel' h]

theorem pulseOf_mono (c : Config) : Monotone (pulseOf c) :=
  fun _ _ h => Nat.add_le_add_left (Nat.div_le_div_right (Nat.mul_le_mul_right _ h)) _

theorem pulse_mem {c : Config} (h : c.minPulse ≤ c.maxPulse) (i a : Byte) :
    c.minPulse ≤ pulse c i a ∧ pulse c i a ≤ c.maxPulse :=
  ⟨minPulse_le_pulseOf c _, pulseOf_le_maxPulse h (safeAngle_le c i a)⟩

theorem trimmed_bounds {c : Config} (h : c.Valid) (i a : Byte) : -128 ≤ trimmed c i a ∧ trimmed c i a ≤ 382 := by
  obtain ⟨hlo, hhi⟩ := trimOf_bounds h i
  have ha := a.isLt
  unfold trimmed
  omega

theorem safeAngle_product_le {c : Config} (h : c.maxPulse ≤ 4095) (i a : Byte) :
    safeAngle c i a * (c.maxPulse - c.minPulse) ≤ 180 * 4095 :=
  Nat.mul_le_mul (safeAngle_le c i a) (by omega)

/-! ### SETANGLE's body -/

theorem trimOf_of_getElem? {c : Config} {i : Byte} {trim : Int} (h : c.trimOffsets[i.toNat]? = some trim) :
    trimOf c i = trim := by
  rw [trimOf, List.getD_eq_getElem?_getD, h, Option.getD_some]

/-- What driving a servo emits: the one pulse where the index selects a servo. -/
def driveEvents (c : Config) (i a : Byte) : List OutputEvent :=
  if i.toNat < c.servoCount then [pulseEvent c i a] else []

theorem driveEvents_of_valid {c : Config} {i : Byte} (a : Byte) (h : i.toNat < c.servoCount) :
    driveEvents c i a = [pulseEvent c i a] :=
  if_pos h

theorem driveEvents_of_invalid {c : Config} {i : Byte} (a : Byte) (h : c.servoCount ≤ i.toNat) :
    driveEvents c i a = [] :=
  if_neg (Nat.not_lt.2 h)

@[simp] theorem State.driveServo_trace (s : State) (i a : Byte) :
    (s.driveServo i a).trace = s.trace ++ driveEvents s.cfg i a := by
  rcases s.driveServo_cases i a with ⟨hi, h⟩ | ⟨hi, h⟩
  · rw [h, driveEvents_of_valid a hi]
  · rw [h, driveEvents_of_invalid a hi, List.append_nil]

/-- Driving a servo again with the same angle repeats the events alone: the angle is stored already. -/
theorem State.driveServo_driveServo (s : State) (i a : Byte) :
    (s.driveServo i a).driveServo i a = (s.driveServo i a).emit (driveEvents s.cfg i a) := by
  rcases s.driveServo_cases i a with ⟨hi, h⟩ | ⟨hi, h⟩
  · have hi' : i.toNat < (s.driveServo i a).cfg.servoCount := by rwa [State.driveServo_cfg]
    rw [State.driveServo_of_valid a hi', driveEvents_of_valid a hi, h]
    simp [State.emit]
  · rw [h, h, driveEvents_of_invalid a hi, State.emit_nil]

/-! ### What a channel is left at (10_state.md section 8) -/

theorem channelOffTick_append (ch : Byte) (es fs : List OutputEvent) :
    channelOffTick ch (es ++ fs) = fs.foldl (channelAfter ch) (channelOffTick ch es) :=
  List.foldl_append

/-- Zero pulses to the channels below `n` leave those at 0 and every other as it was. -/
theorem channelAfter_zeroPulses (ch : Byte) (old : Option Nat) (n : Nat) (hn : n ≤ 256) :
    ((List.range n).map fun i => OutputEvent.pwmSetChannelPulse (BitVec.ofNat 8 i) 0 0).foldl (channelAfter ch) old =
      if ch.toNat < n then some 0 else old := by
  induction n with
  | zero => simp
  | succ n ih =>
    have hch : BitVec.ofNat 8 n = ch ↔ ch.toNat = n := by
      rw [← BitVec.toNat_inj, BitVec.toNat_ofNat, Nat.mod_eq_of_lt (by omega), eq_comm]
    rw [List.range_succ, List.map_append, List.foldl_append, ih (by omega)]
    simp only [List.map_cons, List.map_nil, List.foldl_cons, List.foldl_nil, channelAfter, hch]
    rcases Nat.lt_trichotomy ch.toNat n with h | h | h
    · simp [h, h.ne, Nat.lt_succ_of_lt h]
    · simp [h]
    · simp [h.ne', Nat.not_lt.2 h.le, Nat.not_lt.2 (Nat.succ_le_of_lt h)]

theorem State.disableOutputs_channelOffTick {s : State} (hN : s.cfg.servoCount ≤ 256) (ch : Byte) :
    channelOffTick ch s.disableOutputs.trace =
      if ch.toNat < s.cfg.servoCount then some 0 else channelOffTick ch s.trace := by
  rw [State.disableOutputs_trace, channelOffTick_append, disableEvents, channelAfter_zeroPulses ch _ _ hN]

/-- An accepted SETANGLE leaves its own channel at the pulse and every other as it was. -/
theorem State.driveServo_channelOffTick {s : State} {i : Byte} (a : Byte) (h : i.toNat < s.cfg.servoCount) (ch : Byte) :
    channelOffTick ch (s.driveServo i a).trace =
      if i = ch then some (pulse s.cfg i a) else channelOffTick ch s.trace := by
  rw [State.driveServo_of_valid a h, channelOffTick_append]
  rfl

end Sys2Proof.Machine

namespace Sys2Proof.Proofs.Actuator

open Sys2Proof.Machine

/-- Settles O18: the table's entry is the trim, and the clamped sum is the angle converted. -/
theorem setAngleRunsTheSixSteps : Obligations.SetAngleRunsTheSixSteps := by
  intro s i a trim safe hi htrim hsafe
  have hangle : safeAngle s.cfg i a = safe := by
    have := safeAngle_cast s.cfg i a
    rw [trimmed, trimOf_of_getElem? htrim, ← hsafe] at this
    exact Int.ofNat_inj.1 this
  rw [exec_setAngle, State.driveServo_of_valid a hi, pulseEvent, pulse, hangle, pulseOf]

/-- Settles O21: the pulse of any clamped angle lies between the bounds, the upper one of which fits 12 bits. -/
theorem pulseStaysBetweenItsBounds : Obligations.PulseStaysBetweenItsBounds := by
  intro c i a ⟨_, ⟨hle, hmax⟩, _⟩
  obtain ⟨hlo, hhi⟩ := pulse_mem hle i a
  exact ⟨hlo, hhi, hhi.trans hmax⟩

/-- Settles O22: above `MIN_PULSE` the conversion is the quotient of the full product by 180. -/
theorem conversionIsMonotoneAndExactAtEnds : Obligations.ConversionIsMonotoneAndExactAtEnds := by
  intro c hle
  refine ⟨pulseOf_zero c, pulseOf_angleMax hle, fun _ _ h => pulseOf_mono c h, fun x => ?_⟩
  rw [pulseOf_sub_minPulse]
  exact ⟨Nat.mul_div_le _ 180, Nat.lt_mul_div_succ _ (by decide)⟩

/-- Settles O23: from the ranges of the byte, the trim and the clamped angle. -/
theorem actuatorWidthsSuffice : Obligations.ActuatorWidthsSuffice := by
  intro c i a hv _
  have hproduct := safeAngle_product_le hv.maxPulse_le i a
  exact ⟨trimmed_bounds hv i a, hproduct, by decide, Nat.div_le_of_le_mul hproduct⟩

/-- Settles O24: the events are those of `driveEvents`, both times. -/
theorem repeatedSetAngleRepeatsItsEvent : Obligations.RepeatedSetAngleRepeatsItsEvent := by
  intro s i a
  refine ⟨s.driveServo i a, driveEvents s.cfg i a, exec_setAngle i a s, s.driveServo_trace i a, ?_,
    driveEvents_of_valid a⟩
  rw [exec_setAngle, State.driveServo_driveServo, State.emit]

/-- Settles O26: DISABLEALL emits `disableEvents` and does nothing else. -/
theorem disableAllSendsZeroPulses : Obligations.DisableAllSendsZeroPulses :=
  fun s x => exec_disableAll x s

/-- Settles O27: the zero pulses reach the channels below `N` and no other. -/
theorem disableAllDeenergisesEveryChannel : Obligations.DisableAllDeenergisesEveryChannel := by
  intro s x ch hv
  refine ⟨s.disableOutputs, exec_disableAll x s, s.disableOutputs_curAngle, fun h => ?_, fun h => ?_⟩
  · rw [State.disableOutputs_channelOffTick hv.servoCount_le, if_pos h]
  · rw [State.disableOutputs_channelOffTick hv.servoCount_le, if_neg (Nat.not_lt.2 h)]

/-- Settles O28: DISABLEALL leaves the configuration, so that the index still selects its servo. -/
theorem setAngleReenergisesItsChannel : Obligations.SetAngleReenergisesItsChannel := by
  intro s x i a _ hi
  have hi' : i.toNat < s.disableOutputs.cfg.servoCount := hi
  refine ⟨_, _, exec_disableAll x s, exec_setAngle i a _, ?_, fun ch hch => ?_⟩
  · rw [State.driveServo_channelOffTick a hi', if_pos rfl, State.disableOutputs_cfg]
  · rw [State.driveServo_channelOffTick a hi', if_neg hch.symm]

/-- Settles O29: INIT's loop stores every initial angle and sends `initEvents`. -/
theorem initDrivesEveryServo : Obligations.InitDrivesEveryServo := by
  intro s x hv hl
  rw [exec_init, State.initAll_of_valid hv hl]
  rfl

/-- Settles O30: after INIT the array is the table of initial angles, which `getAngleAnswersStoredAngle` then reads. -/
theorem getAngleAfterInit : Obligations.GetAngleAfterInit := by
  intro s x i y v hv hl hinit
  refine ⟨_, exec_init x s, ?_⟩
  have hi : i.toNat < s.cfg.servoCount := by
    obtain ⟨hlt, _⟩ := List.getElem?_eq_some_iff.1 hinit
    rwa [hv.initAngles_length] at hlt
  rw [State.initAll_of_valid hv hl]
  exact (getAngleAnswersStoredAngle _ i y v).1 hi hinit

end Sys2Proof.Proofs.Actuator
end

section
/-!
Frames (40_decoder.md): the accepting arm of finalize, the three outcomes of a whole frame that meets `AwaitingHeader`, and the
servo whose angle a frame can change in any decoder state.
-/

namespace Sys2Proof.Machine

/-! ### The accepting arm of finalize -/

theorem finalOutcome_storeChecksum_eq_ok_iff (c : Config) (p : Packet) (b : Byte) :
    finalOutcome c { p with cell3 := b } = .ok ↔
      (p.cell0.toNat + p.cell1.toNat + p.cell2.toNat) % 256 = b.toNat ∧
        p.cell1.toNat < c.servoCount ∧ p.cell2.toNat ≤ 180 :=
  (finalOutcome_eq_ok_iff c { p with cell3 := b }).trans (and_congr_left' (checksum_eq_iff p b))

theorem State.closeFrame_of_accepted {s : State} {b : Byte} (h : finalOutcome s.cfg { s.packet with cell3 := b } = .ok) :
    s.closeFrame b =
      { s with
        packet := { s.packet with cell3 := b }, dstate := .awaitingHeader
        curAngle := s.curAngle.set s.packet.cell1.toNat s.packet.cell2
        trace := s.trace ++ [pulseEvent s.cfg s.packet.cell1 s.packet.cell2, .status .ok] } := by
  obtain ⟨k, hk, hout, _⟩ | ⟨_, _, _, hclose⟩ := s.closeFrame_cases b
  · exact absurd (hout.symm.trans h) hk
  · exact hclose

/-- The decoder's state has no part in finalizing a frame. -/
theorem State.closeFrame_withDState (s : State) (d : DState) (b : Byte) :
    State.closeFrame { s with dstate := d } b = s.closeFrame b := by
  rcases s.closeFrame_cases b with ⟨k, hk, hout, h⟩ | ⟨hout, _, _, h⟩
  · rw [h, State.closeFrame_of_rejected (s := { s with dstate := d }) hout hk]
  · rw [h, State.closeFrame_of_accepted (s := { s with dstate := d }) hout]

/-! ### A whole frame -/

/-- A frame that meets `AwaitingHeader` is finalized on its own four bytes. -/
theorem State.receiveFrame_of_header {s : State} (hd : s.dstate = .awaitingHeader) (i a c : Byte) :
    s.receiveBytes [header, i, a, c] =
      State.closeFrame { s with packet := ⟨header, i, a, s.packet.cell3⟩, dstate := .awaitingChecksum } c := by
  rw [State.receiveBytes_cons, s.receiveByte_of_header hd]
  rfl

/-- Such a frame, rejected: one report and nothing else. -/
theorem State.receiveFrame_of_rejected {s : State} {i a c : Byte} {k : StatusCode} (hd : s.dstate = .awaitingHeader)
    (h : finalOutcome s.cfg ⟨header, i, a, c⟩ = k) (hk : k ≠ .ok) :
    s.receiveBytes [header, i, a, c] = { s with packet := ⟨header, i, a, c⟩, trace := s.trace ++ [.status k] } := by
  rw [State.receiveFrame_of_header hd, State.closeFrame_of_rejected h hk, ← hd]

/-- Such a frame, accepted: the servo is driven, then one report. -/
theorem State.receiveFrame_of_accepted {s : State} {i a c : Byte} (hd : s.dstate = .awaitingHeader)
    (h : finalOutcome s.cfg ⟨header, i, a, c⟩ = .ok) :
    s.receiveBytes [header, i, a, c] =
      { s with
        packet := ⟨header, i, a, c⟩, curAngle := s.curAngle.set i.toNat a
        trace := s.trace ++ [pulseEvent s.cfg i a, .status .ok] } := by
  rw [State.receiveFrame_of_header hd, State.closeFrame_of_accepted h, ← hd]

/-- In every decoder state a frame changes at most the stored angle of its target. -/
theorem State.receiveFrame_getElem? (s : State) (i a c : Byte) {j : Nat} (hj : j ≠ (frameTarget s i).toNat) :
    (s.receiveBytes [header, i, a, c]).curAngle[j]? = s.curAngle[j]? := by
  simp only [State.receiveBytes_cons, State.receiveBytes_nil]
  cases hd : s.dstate
  all_goals
    simp only [frameTarget, hd] at hj
    rw [State.receiveByte_getElem?, State.receiveByte_getElem?, State.receiveByte_getElem?, State.receiveByte_getElem?]
    all_goals simp [hd, hj]

end Sys2Proof.Machine

namespace Sys2Proof.Proofs.Frames

open Sys2Proof.Machine

/-- Settles O7: the three conditions are those of the outcome `ok`. -/
theorem csumFinalDrivesTheServo : Obligations.CsumFinalDrivesTheServo := by
  intro s b hsum hidx hang
  have hout := (finalOutcome_storeChecksum_eq_ok_iff s.cfg s.packet b).2 ⟨hsum, hidx, hang⟩
  rw [exec_csumFinal, State.closeFrame_of_accepted hout, pulseEvent]

/-- Settles O8: all arms of finalize report once and end in `AwaitingHeader`. -/
theorem csumFinalAlwaysReportsOnce : Obligations.CsumFinalAlwaysReportsOnce :=
  fun s b =>
    ⟨s.closeFrame b, exec_csumFinal b s, s.closeFrame_dstate b, s.closeFrame_packet b,
      (TraceGrows.closeFrame s b).statusCount_eq⟩

/-- Settles O9: reducing the exact sum is adding modulo 256 at each step. -/
theorem checksumIsAWrappingSum : Obligations.ChecksumIsAWrappingSum := by
  intro p
  have hsum : (checksum p).toNat = (p.cell0.toNat + p.cell1.toNat + p.cell2.toNat) % 256 := BitVec.toNat_ofNat ..
  refine ⟨BitVec.eq_of_toNat_eq ?_, hsum⟩
  rw [hsum, BitVec.toNat_add, BitVec.toNat_add, Nat.mod_add_mod]

/-- Settles O54: the byte operations overwrite the decoder's state, and finalize does not read it. -/
theorem byteOperationsDoNotReadTheDecoderState : Obligations.ByteOperationsDoNotReadTheDecoderState :=
  fun s d b => ⟨rfl, rfl, rfl, rfl, congrArg Host.Outcome.next (s.closeFrame_withDState d b)⟩

/-- Settles O11: the frame's own bytes are accepted. -/
theorem validFrameDrivesItsServo : Obligations.ValidFrameDrivesItsServo := by
  intro s i a c hd hsum hidx hang
  have hout : finalOutcome s.cfg ⟨header, i, a, c⟩ = .ok :=
    (finalOutcome_storeChecksum_eq_ok_iff s.cfg ⟨header, i, a, c⟩ c).2 ⟨hsum.symm, hidx, hang⟩
  rw [exec_servoCmd, State.receiveFrame_of_accepted hd hout, pulseEvent, header]

/-- Settles O12: the frame's own bytes have a wrong checksum. -/
theorem badChecksumFrameIsReported : Obligations.BadChecksumFrameIsReported := by
  intro s i a c hd hsum
  have hout : finalOutcome s.cfg ⟨header, i, a, c⟩ = .errChecksum :=
    (finalOutcome_storeChecksum_eq_errChecksum_iff s.cfg ⟨header, i, a, c⟩ c).2 hsum.symm
  rw [exec_servoCmd, State.receiveFrame_of_rejected hd hout (by decide), header]

/-- Settles O13: the frame's own bytes have a right checksum and a field out of range. -/
theorem outOfRangeFrameIsReported : Obligations.OutOfRangeFrameIsReported := by
  intro s i a c hd hsum hrange
  have hout : finalOutcome s.cfg ⟨header, i, a, c⟩ = .errRange :=
    (finalOutcome_storeChecksum_eq_errRange_iff s.cfg ⟨header, i, a, c⟩ c).2 ⟨hsum.symm, hrange⟩
  rw [exec_servoCmd, State.receiveFrame_of_rejected hd hout (by decide), header]

end Sys2Proof.Proofs.Frames
end

section
/-!
What an operation leaves alone (10_state.md, 40_decoder.md section 5) and RESET (70_reset_and_hazards.md section 1).
-/

namespace Sys2Proof.Machine

@[simp] theorem exec_reset (s : State) : exec .reset s = .next s.restart := rfl

/-! ### What the actuator emits and stores -/

theorem statusCount_driveEvents (c : Config) (i a : Byte) : statusCount (driveEvents c i a) = 0 := by
  unfold driveEvents
  split <;> rfl

theorem statusCount_disableEvents (c : Config) : statusCount (disableEvents c) = 0 := by
  simp [statusCount, disableEvents, OutputEvent.isStatus]

theorem TraceGrows.driveServo (s : State) (i a : Byte) : TraceGrows 0 s (s.driveServo i a) :=
  ⟨_, s.driveServo_trace i a, statusCount_driveEvents s.cfg i a⟩

theorem TraceGrows.disableOutputs (s : State) : TraceGrows 0 s s.disableOutputs :=
  ⟨_, s.disableOutputs_trace, statusCount_disableEvents s.cfg⟩

theorem TraceGrows.initAll (s : State) : TraceGrows 0 s s.initAll :=
  State.initServo_induct (R := TraceGrows 0 s) (fun u i a h => h.trans (.driveServo u i a)) _ _ ⟨_, rfl, rfl⟩

theorem TraceGrows.restart (s : State) : TraceGrows 0 s s.restart :=
  (TraceGrows.of_trace_eq rfl).trans (.initAll _)

/-- Every operation only adds to the trace, and reports as often as it finalizes (40_decoder.md section 5). -/
theorem TraceGrows.exec {i : Instr} {s t : State} (h : exec i s = .next t) : TraceGrows i.finalizes s t := by
  cases i with
  | servoCmd i a c => cases h; exact .receiveFrame s i a c
  | csumFinal b => cases h; exact .closeFrame s b
  | setAngle i a => cases h; exact .driveServo s i a
  | getAngle i x => cases h; exact ⟨_, rfl, rfl⟩
  | disableAll x => cases h; exact .disableOutputs s
  | init x => cases h; exact .initAll s
  | reset => cases h; exact .restart s
  | hdrAccept => cases h; exact .of_trace_eq rfl
  | hdrDrop b => cases h; exact .of_trace_eq rfl
  | idxStore b => cases h; exact .of_trace_eq rfl
  | angStore b => cases h; exact .of_trace_eq rfl

@[simp] theorem State.driveServo_curAngle_length (s : State) (i a : Byte) :
    (s.driveServo i a).curAngle.length = s.curAngle.length := by
  rcases s.driveServo_cases i a with ⟨_, h⟩ | ⟨_, h⟩ <;> simp [h]

/-- SETANGLE stores to its own cell alone. -/
theorem State.driveServo_getElem?_of_ne (s : State) {i : Byte} (a : Byte) {j : Nat} (hj : j ≠ i.toNat) :
    (s.driveServo i a).curAngle[j]? = s.curAngle[j]? := by
  rcases s.driveServo_cases i a with ⟨_, h⟩ | ⟨_, h⟩
  · rw [h, List.getElem?_set_ne hj.symm]
  · rw [h]

/-- SETANGLE stores to no cell from `N` on. -/
theorem State.driveServo_getElem?_of_le (s : State) (i a : Byte) {j : Nat} (hj : s.cfg.servoCount ≤ j) :
    (s.driveServo i a).curAngle[j]? = s.curAngle[j]? := by
  rcases s.driveServo_cases i a with ⟨hi, _⟩ | ⟨_, h⟩
  · exact s.driveServo_getElem?_of_ne a (by omega)
  · rw [h]

@[simp] theorem State.initAll_curAngle_length (s : State) : s.initAll.curAngle.length = s.curAngle.length :=
  State.initServo_induct (R := fun u => u.curAngle.length = s.curAngle.length) (by simp) _ _ rfl

theorem State.initAll_getElem?_of_le (s : State) {j : Nat} (hj : s.cfg.servoCount ≤ j) :
    s.initAll.curAngle[j]? = s.curAngle[j]? := by
  have hrounds := State.initServo_induct (R := fun u => u.cfg = s.cfg ∧ u.curAngle[j]? = s.curAngle[j]?)
    (fun u i a ⟨hc, hu⟩ => ⟨by rwa [State.driveServo_cfg], (u.driveServo_getElem?_of_le i a (by rwa [hc])).trans hu⟩)
    (List.range s.cfg.servoCount) (s.emit [.pwmSetFrequency s.cfg.pwmFreq]) ⟨rfl, rfl⟩
  exact hrounds.2

/-- What a local operation leaves alone: all but the stored angles and the trace. -/
theorem exec_local_frame {i : Instr} {s t : State} (hi : i.isLocal = true) (h : exec i s = .next t) :
    t.dstate = s.dstate ∧ t.packet = s.packet ∧ t.freeIx = s.freeIx ∧ t.curAngle.length = s.curAngle.length := by
  cases i with
  | setAngle i a => cases h; simp
  | getAngle i x => cases h; simp
  | disableAll x => cases h; simp
  | init x => cases h; simp
  | _ => cases hi

/-- Finalizing operations draw no free byte. -/
theorem State.receiveBytes_freeIx (s : State) (bs : List Byte) : (s.receiveBytes bs).freeIx = s.freeIx :=
  State.receiveBytes_induct (R := fun u => u.freeIx = s.freeIx) (by simp) bs rfl

end Sys2Proof.Machine

namespace Sys2Proof.Proofs.Frames

open Sys2Proof.Machine

/-- Settles O17: only finalize emits statuses, one each time, and a frame finalizes once. -/
theorem statusEventsCountFinalizes : Obligations.StatusEventsCountFinalizes :=
  fun _ _ _ h => (TraceGrows.exec h).statusCount_eq

/-- Settles O34: CSUM_FINAL and a frame can store the target's angle and nothing else in the array. -/
theorem finalizingOperationsFrame : Obligations.FinalizingOperationsFrame := by
  rintro s t i a b target (⟨h, rfl⟩ | ⟨h, rfl⟩)
  · obtain ⟨hcfg, hpending, _⟩ := exec_frame h
    have htrace := (TraceGrows.exec h).isPrefix
    cases h
    refine ⟨hcfg, by simp, hpending, s.closeFrame_freeIx b, htrace, fun j hj => ?_⟩
    rw [← State.closeFrame_withDState s .awaitingChecksum, ← State.receiveByte_of_checksum _ b rfl]
    exact State.receiveByte_getElem? _ b fun _ => hj
  · obtain ⟨hcfg, hpending, _⟩ := exec_frame h
    have htrace := (TraceGrows.exec h).isPrefix
    obtain rfl : s.receiveBytes [header, i, a, b] = t := Host.Outcome.next.inj h
    exact ⟨hcfg, by simp, hpending, s.receiveBytes_freeIx _, htrace,
      fun j hj => s.receiveFrame_getElem? i a b hj⟩

/-- Settles O35: each local operation by what the actuator's bodies store. -/
theorem localOperationsFrame : Obligations.LocalOperationsFrame := by
  intro i s t hi h
  obtain ⟨hdstate, hpacket, hfree, hlength⟩ := exec_local_frame hi h
  obtain ⟨hcfg, hpending, hstarted⟩ := exec_frame h
  have hstarted : t.started = s.started := by
    have hne : i ≠ .reset := by rintro rfl; cases hi
    simpa [hne] using hstarted
  refine ⟨hdstate, hpacket, hcfg, hstarted, hpending, hfree, (TraceGrows.exec h).isPrefix, hlength, ?_, ?_, ?_, ?_⟩
  · rintro idx x rfl; cases h; rfl
  · rintro x rfl; cases h; rfl
  · rintro idx a rfl j hj; cases h; exact s.driveServo_getElem?_of_ne a hj
  · rintro x rfl j hj; cases h; exact s.initAll_getElem?_of_le hj

end Sys2Proof.Proofs.Frames

namespace Sys2Proof.Proofs.Reset

open Sys2Proof.Machine

/-- Settles O31: RESET is INIT on a decoder set back. -/
theorem resetRestartsTheBlock : Obligations.ResetRestartsTheBlock := by
  intro s hv hl
  refine ⟨s.restart, exec_reset s, s.restart_cfg, s.restart_dstate, ?_, ?_, s.restart_started, s.restart_pending⟩
  · rw [State.restart_of_valid hv hl]
  · rw [State.restart_of_valid hv hl]

/-- Settles O32: everything that RESET leaves is a function of the configuration. -/
theorem resetForgetsThePast : Obligations.ResetForgetsThePast := by
  intro s s' hv hc hl hl'
  rw [← hc] at hl'
  have hv' : s'.cfg.Valid := hc ▸ hv
  obtain ⟨t, ht, hcfg, hd, hang, htrace, hstarted, _⟩ := resetRestartsTheBlock s hv hl
  obtain ⟨t', ht', hcfg', hd', hang', htrace', hstarted', _⟩ := resetRestartsTheBlock s' hv' hl'
  exact ⟨t, t', initEvents s.cfg, ht, ht', by rw [hcfg', hcfg, hc], by rw [hd', hd], by rw [hang', hang, hc],
    by rw [hstarted', hstarted], htrace, by rw [htrace', hc]⟩

/-- Settles O33: the fields of `State.resetWith`; the machine's own is that of `REF`. -/
theorem resetStateAwaitsAHeader : Obligations.ResetStateAwaitsAHeader :=
  ⟨fun c => ⟨State.resetWith_dstate c, State.resetWith_curAngle c, State.resetWith_cfg c, State.resetWith_trace c,
    State.resetWith_pending c⟩, Config.reference, Config.reference_valid, rfl, rfl⟩

end Sys2Proof.Proofs.Reset
end

section
/-!
Steps (00_scope.md section 5; 30_encoding.md sections 3, 4, 7): which operation a step runs, when it is refused, what no step
changes, and how events show on the output pins.
-/

namespace Sys2Proof.Machine

/-! ### The step on one arrival -/

theorem runInstr_of_started {i : Instr} {s : State} (h : s.started = true ∨ i = .reset) : runInstr i s = exec i s :=
  if_pos h

/-- After the first RESET a step runs the operation its next arrival's word stands for. -/
theorem step_eq_exec {s : State} {x : Arrival} {rest : List Arrival} {w : PortWord} {i : Instr} (hv : s.cfg.Valid)
    (hs : s.started = true ∨ i = .reset) (hp : s.pending = x :: rest) (hx : x.present s.dstate = .word w)
    (hd : decode w = .ok i) : step s = exec i { s with pending := rest } := by
  rw [step_of_word hv hp hx hd]
  exact runInstr_of_started hs

theorem step_of_no_arrival {s : State} (hv : s.cfg.Valid) (hp : s.pending = []) : step s = .next s := by
  rw [step_of_valid hv, hp]

theorem step_of_nothing {s : State} {x : Arrival} {rest : List Arrival} (hv : s.cfg.Valid) (hp : s.pending = x :: rest)
    (hx : x.present s.dstate = .nothing) : step s = .next { s with pending := rest } := by
  rw [step_of_valid hv, hp]
  simp only [hx, runPresented]

/-- The step on a cycle of the pins. -/
theorem step_of_cycle {s : State} {p : InputPins} {rest : List Arrival} (hv : s.cfg.Valid)
    (hp : s.pending = .cycle p :: rest) : step s = runPresented (p.present s.dstate) { s with pending := rest } := by
  rw [step_of_valid hv, hp]
  rfl

theorem InputPins.present_nothing {p : InputPins} (d : DState) (hrst : p.rst = false) (hrx : p.rxValid = false)
    (hcmd : p.cmdValid = false) : p.present d = .nothing := by
  simp [InputPins.present, hrst, hrx, hcmd]

/-- Two valid pins in one cycle are a clash. -/
theorem InputPins.present_clash {p : InputPins} (d : DState)
    (h : p.rxValid = true ∧ p.cmdValid = true ∨ p.rst = true ∧ (p.rxValid = true ∨ p.cmdValid = true)) :
    p.present d = .clash := by
  obtain ⟨hrx, hcmd⟩ | ⟨hrst, hrx | hcmd⟩ := h
  · cases hrst : p.rst <;> simp [InputPins.present, hrst, hrx, hcmd]
  · cases hcmd : p.cmdValid <;> simp [InputPins.present, hrst, hrx, hcmd]
  · cases hrx : p.rxValid <;> simp [InputPins.present, hrst, hrx, hcmd]

/-- A step on a local command: `cmd_op` alone chooses the operation. -/
theorem step_of_command {s : State} {op : BitVec 2} {i a : Byte} {rest : List Arrival} {j : Instr} (hv : s.cfg.Valid)
    (hs : s.started = true) (hp : s.pending = .cycle (.cmd op i a) :: rest) (hj : decodeCommand (op ++ i ++ a) = j) :
    step s = exec j { s with pending := rest } :=
  step_eq_exec hv (.inl hs) hp (InputPins.present_cmd op i a s.dstate) (congrArg Except.ok hj)

/-! ### The word placed for the next step -/

theorem DState.code_ofCode (x : BitVec 2) : (DState.ofCode x).code = x := by
  rcases two_bits x with rfl | rfl | rfl | rfl <;> rfl

/-- A word that decodes has an arrival that presents it, in the decoder state the word names. -/
theorem present_wordArrival {w : PortWord} {i : Instr} (h : decode w = .ok i) (d : DState) :
    ∃ x, wordArrival w = some x ∧ x.present (wordDState w d) = .word w := by
  cases w with
  | frame f =>
    obtain ⟨_, henc⟩ := encode_decode h
    obtain ⟨hfirst, _⟩ := (decodeFrame_eq_ok_iff f i).1 h
    refine ⟨_, if_pos hfirst, ?_⟩
    rw [Arrival.present, ← hfirst, frame_rejoin]
  | selector x =>
    refine ⟨_, rfl, ?_⟩
    rw [Arrival.rx, Arrival.present, InputPins.present_rx, wordDState, DState.code_ofCode, selector_eq_of_state rfl]
  | command x =>
    refine ⟨_, rfl, ?_⟩
    rw [Arrival.present, InputPins.present_cmd, command_rejoin]
  | resetPin x =>
    obtain ⟨rfl, _⟩ := (decode_resetPin_eq_ok_iff x i).1 h
    exact ⟨_, rfl, rfl⟩

theorem State.withFetchWord_encode (s : State) (w : PortWord) : s.withFetchWord w.nbits w.toNat = s.placeWord w := by
  rw [State.withFetchWord, tableWord_nbits_toNat]

/-- Placing a word that decodes puts the decoder into the state it names and an arrival that presents it in front. -/
theorem State.placeWord_of_decode {w : PortWord} {i : Instr} (h : decode w = .ok i) (s : State) :
    ∃ x, x.present (wordDState w s.dstate) = .word w ∧
      s.placeWord w = { s with dstate := wordDState w s.dstate, pending := x :: s.pending } := by
  obtain ⟨x, harr, hx⟩ := present_wordArrival h s.dstate
  exact ⟨x, hx, by rw [State.placeWord, harr]⟩

/-! ### The output pins -/

theorem StatusCode.code_injective : Function.Injective StatusCode.code := by
  intro k k'
  cases k <;> cases k' <;> simp [StatusCode.code]

/-- A number that fits the pins is what they show. -/
theorem ofNat_inj_of_lt {w m n : Nat} (hm : m < 2 ^ w) (hn : n < 2 ^ w) (h : BitVec.ofNat w m = BitVec.ofNat w n) :
    m = n := by
  rw [← BitVec.toNat_inj, BitVec.toNat_ofNat, BitVec.toNat_ofNat, Nat.mod_eq_of_lt hm, Nat.mod_eq_of_lt hn] at h
  exact h

/-- The ticks of a safe pulse fit their pins. -/
theorem EventSafe.ticks_lt {c : Config} (hv : c.Valid) {ch : Byte} {on off : Nat}
    (h : EventSafe c (.pwmSetChannelPulse ch on off)) : on < 2 ^ 12 ∧ off < 2 ^ 12 := by
  obtain ⟨_, hon, hoff⟩ := h
  have hmax := hv.maxPulse_le
  omega

theorem pins_setChannelPulse_inj {busy : Bool} {ch ch' : Byte} {on on' off off' : Nat}
    (hlt : on < 2 ^ 12 ∧ off < 2 ^ 12) (hlt' : on' < 2 ^ 12 ∧ off' < 2 ^ 12)
    (h : (OutputEvent.pwmSetChannelPulse ch on off).pins busy = (OutputEvent.pwmSetChannelPulse ch' on' off').pins busy) :
    OutputEvent.pwmSetChannelPulse ch on off = .pwmSetChannelPulse ch' on' off' := by
  simp only [OutputEvent.pins, OutputPins.mk.injEq, Option.some.injEq, PwmPort.setChannelPulse.injEq] at h
  obtain ⟨_, _, ⟨rfl, hon, hoff⟩, _⟩ := h
  rw [ofNat_inj_of_lt hlt.1 hlt'.1 hon, ofNat_inj_of_lt hlt.2 hlt'.2 hoff]

end Sys2Proof.Machine

namespace Sys2Proof.Proofs.Step

open Sys2Proof.Machine

/-- Settles O36: a step waits, takes an arrival, or runs an operation, which only adds events. -/
theorem configurationIsNeverWritten : Obligations.ConfigurationIsNeverWritten := by
  intro s t h
  obtain ⟨_, ⟨_, rfl⟩ | ⟨x, rest, _, ⟨_, rfl⟩ | ⟨w, i, _, _, _, hexec⟩⟩⟩ := step_cases h
  · exact ⟨rfl, List.prefix_rfl⟩
  · exact ⟨rfl, List.prefix_rfl⟩
  · exact ⟨(exec_frame hexec).1, (TraceGrows.exec hexec).isPrefix⟩

/-- Settles O44: each code of `cmd_op` by the decoder's row for it. -/
theorem commandPortSelectsItsOperation : Obligations.CommandPortSelectsItsOperation := by
  intro s op i a rest hv hs hp
  refine ⟨fun h => ?_, fun h => ?_, fun h => ?_, fun h => ?_⟩
  · obtain rfl : op = 0#2 := BitVec.eq_of_toNat_eq h
    exact step_of_command hv hs hp (by simp [decodeCommand])
  · obtain rfl : op = 1#2 := BitVec.eq_of_toNat_eq h
    exact step_of_command hv hs hp (by simp [decodeCommand])
  · obtain rfl : op = 2#2 := BitVec.eq_of_toNat_eq h
    exact step_of_command hv hs hp (by simp [decodeCommand])
  · obtain rfl : op = 3#2 := BitVec.eq_of_toNat_eq h
    exact step_of_command hv hs hp (by simp [decodeCommand])

/-- Settles O45: the step's path through fetch and decode. -/
theorem stepRunsTheDecodedOperation : Obligations.StepRunsTheDecodedOperation :=
  fun _ _ _ _ _ hv hp hx hd hs => step_eq_exec hv hs hp hx hd

/-- Settles O46: the placed arrival presents the operation's word, which decodes to it. -/
theorem placedWordIsRunNext : Obligations.PlacedWordIsRunNext := by
  intro s i hw hv hs
  have hd := decode_encode i hw
  obtain ⟨x, hx, hplace⟩ := State.placeWord_of_decode hd s
  rw [State.withFetchWord_encode, hplace]
  exact step_eq_exec (s := { s with dstate := wordDState (encode i) s.dstate, pending := x :: s.pending })
    hv (.inl hs) rfl hx hd

/-- Settles O47: an arrival is no event, a clash, or a word that decodes, and every operation completes. -/
theorem blockNeverStops : Obligations.BlockNeverStops := by
  intro s hv hs
  refine ⟨step_of_no_arrival hv, fun x rest hp hclash => ?_⟩
  obtain hx | hx | ⟨w, i, hx, hd⟩ := x.present_cases s.dstate
  · exact ⟨_, step_of_nothing hv hp hx, rfl, hs⟩
  · exact absurd hx hclash
  · obtain ⟨t, ht⟩ := exec_completes i { s with pending := rest }
    obtain ⟨_, hpending, hstarted⟩ := exec_frame ht
    exact ⟨t, (step_eq_exec hv (.inl hs) hp hx hd).trans ht, hpending, by rw [hstarted, hs, Bool.true_or]⟩

/-- Settles O48: two valid pins are a clash. -/
theorem twoEventsAtOnceAreRefused : Obligations.TwoEventsAtOnceAreRefused := by
  intro s p rest hv hp htwo
  rw [step_of_cycle hv hp, InputPins.present_clash s.dstate htwo, runPresented]

/-- Settles O49: the two tests that a step makes before it runs an operation. -/
theorem unreadyBlockIsRefused : Obligations.UnreadyBlockIsRefused := by
  refine ⟨fun s hv => step_of_invalid hv, fun s x rest w i hv hs hp hx hd hi => ?_⟩
  rw [step_of_word hv hp hx hd, runInstr, if_neg (by simp [hs, hi])]

/-- Settles O50: a cycle without a valid pin presents nothing. -/
theorem idleCycleChangesNothing : Obligations.IdleCycleChangesNothing := by
  intro s p rest hv hp hrst hrx hcmd
  exact step_of_nothing hv hp (InputPins.present_nothing s.dstate hrst hrx hcmd)

/-- Settles O53: the ports tell the kinds of event apart, and a safe event's numbers fit their pins. -/
theorem pinsTellEventsApart : Obligations.PinsTellEventsApart := by
  intro c busy e e' hv _ he he' hpins
  cases e with
  | status k =>
    cases e' with
    | status k' =>
      simp only [OutputEvent.pins, OutputPins.mk.injEq, Option.some.injEq] at hpins
      obtain ⟨_, hcode, _⟩ := hpins
      rw [StatusCode.code_injective hcode]
    | _ => cases hpins
  | pwmSetFrequency hz =>
    cases e' with
    | pwmSetFrequency hz' => exact congrArg _ ((he : hz = _).trans (he' : hz' = _).symm)
    | _ => cases hpins
  | pwmSetChannelPulse ch on off =>
    cases e' with
    | pwmSetChannelPulse ch' on' off' => exact pins_setChannelPulse_inj (he.ticks_lt hv) (he'.ticks_lt hv) hpins
    | _ => cases hpins
  | angleResponse v =>
    cases e' with
    | angleResponse v' => cases hpins; rfl
    | _ => cases hpins

end Sys2Proof.Proofs.Step
end

section
/-!
Invariants of a run (10_state.md sections 3 and 4, 41_actuator.md section 5): the invariant `Inv` at reset and over every step,
and the range of the stored angles over every operation.
-/

namespace Sys2Proof.Machine

/-! ### What a step can run -/

/-- An operation that a step runs receives bytes, is local, or is RESET: a byte operation is only fetched in the decoder state
of its row (30_encoding.md R45), and there it does what its byte does. -/
theorem exec_of_fetched {x : Arrival} {d : DState} {w : PortWord} {i : Instr} (hx : x.present d = .word w)
    (hd : decode w = .ok i) :
    (∃ bs, ∀ s : State, s.dstate = d → exec i s = .next (s.receiveBytes bs)) ∨ i.isLocal = true ∨ i = .reset := by
  cases i with
  | servoCmd i a c => exact .inl ⟨[header, i, a, c], fun s _ => exec_servoCmd i a c s⟩
  | hdrAccept =>
    obtain ⟨hrow, -, -, -, -⟩ := Arrival.present_fits hx hd header
    obtain rfl := hrow rfl
    exact .inl ⟨[header], fun s hs => congrArg _ (s.receiveByte_of_header hs).symm⟩
  | hdrDrop b =>
    obtain ⟨-, hrow, -, -, -⟩ := Arrival.present_fits hx hd b
    obtain rfl := hrow rfl
    have hb : b ≠ header := bne_iff_ne.1 (encode_decode hd).1
    exact .inl ⟨[b], fun s hs => congrArg _ (s.receiveByte_of_noise hs hb).symm⟩
  | idxStore b =>
    obtain ⟨-, -, hrow, -, -⟩ := Arrival.present_fits hx hd b
    obtain rfl := hrow rfl
    exact .inl ⟨[b], fun s hs => congrArg _ (s.receiveByte_of_index b hs).symm⟩
  | angStore b =>
    obtain ⟨-, -, -, hrow, -⟩ := Arrival.present_fits hx hd b
    obtain rfl := hrow rfl
    exact .inl ⟨[b], fun s hs => congrArg _ (s.receiveByte_of_angle b hs).symm⟩
  | csumFinal b =>
    obtain ⟨-, -, -, -, hrow⟩ := Arrival.present_fits hx hd b
    obtain rfl := hrow rfl
    exact .inl ⟨[b], fun s hs => congrArg _ (s.receiveByte_of_checksum b hs).symm⟩
  | reset => exact .inr (.inr rfl)
  | _ => exact .inr (.inl rfl)

/-! ### Events the block may emit -/

theorem ofNat_toNat_lt {i n : Nat} (h : i < n) : (BitVec.ofNat 8 i).toNat < n := by
  rw [BitVec.toNat_ofNat]
  exact (Nat.mod_le i _).trans_lt h

theorem eventSafe_pulseEvent {c : Config} (hv : c.Valid) {i : Byte} (hi : i.toNat < c.servoCount) (a : Byte) :
    EventSafe c (pulseEvent c i a) :=
  ⟨hi, rfl, .inr (pulse_mem hv.minPulse_le_maxPulse i a)⟩

theorem eventSafe_driveEvents {c : Config} (hv : c.Valid) (i a : Byte) : ∀ e ∈ driveEvents c i a, EventSafe c e := by
  intro e he
  unfold driveEvents at he
  split at he
  case isTrue hi => rw [List.mem_singleton.1 he]; exact eventSafe_pulseEvent hv hi a
  case isFalse => cases he

theorem eventSafe_disableEvents (c : Config) : ∀ e ∈ disableEvents c, EventSafe c e := by
  intro e he
  obtain ⟨i, hi, rfl⟩ := List.mem_map.1 he
  exact ⟨ofNat_toNat_lt (List.mem_range.1 hi), rfl, .inl rfl⟩

theorem eventSafe_initEvents {c : Config} (hv : c.Valid) : ∀ e ∈ initEvents c, EventSafe c e := by
  intro e he
  obtain rfl | he := List.mem_cons.1 he
  · rfl
  · obtain ⟨i, hi, rfl⟩ := List.mem_map.1 he
    exact eventSafe_pulseEvent hv (ofNat_toNat_lt (List.mem_range.1 hi)) _

/-! ### The invariant over each transition -/

/-- What keeps the invariant: the configuration and the array's size left alone, the header there where a frame is in progress,
safe events added. -/
theorem Inv.extend {s t : State} (h : Inv s) (hc : t.cfg = s.cfg) (hl : t.curAngle.length = s.curAngle.length)
    (hh : t.dstate ≠ .awaitingHeader → t.packet.cell0 = header) {es : List OutputEvent} (ht : t.trace = s.trace ++ es)
    (hes : ∀ e ∈ es, EventSafe s.cfg e) : Inv t where
  cfgValid := by rw [hc]; exact h.cfgValid
  anglesLength := by rw [hl, hc]; exact h.anglesLength
  headerStored := hh
  eventsSafe := by
    rw [hc, ht]
    exact List.forall_mem_append.2 ⟨h.eventsSafe, hes⟩

theorem Inv.withPending {s : State} (h : Inv s) (p : List Arrival) : Inv { s with pending := p } :=
  ⟨h.cfgValid, h.anglesLength, h.headerStored, h.eventsSafe⟩

theorem Inv.closeFrame {s : State} (h : Inv s) (b : Byte) : Inv (s.closeFrame b) := by
  have hh : (s.closeFrame b).dstate ≠ .awaitingHeader → (s.closeFrame b).packet.cell0 = header :=
    fun hne => absurd (s.closeFrame_dstate b) hne
  rcases s.closeFrame_cases b with ⟨k, _, _, hclose⟩ | ⟨_, hi, _, hclose⟩
  · exact h.extend (s.closeFrame_cfg b) (by rw [hclose]) hh (es := [.status k]) (by rw [hclose]) (by simp [EventSafe])
  · refine h.extend (s.closeFrame_cfg b) (by rw [hclose, List.length_set]) hh (by rw [hclose]) ?_
    rw [List.forall_mem_cons]
    exact ⟨eventSafe_pulseEvent h.cfgValid hi _, by simp [EventSafe]⟩

theorem Inv.receiveByte {s : State} (h : Inv s) (b : Byte) : Inv (s.receiveByte b) := by
  have hkept : s.dstate ≠ .awaitingHeader → s.packet.cell0 = header := h.headerStored
  rcases s.receiveByte_cases b with ⟨_, _, hr⟩ | ⟨_, _, hr⟩ | ⟨hd, hr⟩ | ⟨hd, hr⟩ | ⟨_, hr⟩ <;> rw [hr]
  · exact h.extend rfl rfl (fun _ => rfl) (List.append_nil _).symm (by simp)
  · exact h
  · exact h.extend rfl rfl (fun _ => hkept (by rw [hd]; decide)) (List.append_nil _).symm (by simp)
  · exact h.extend rfl rfl (fun _ => hkept (by rw [hd]; decide)) (List.append_nil _).symm (by simp)
  · exact h.closeFrame b

theorem Inv.driveServo {s : State} (h : Inv s) (i a : Byte) : Inv (s.driveServo i a) :=
  h.extend (s.driveServo_cfg i a) (s.driveServo_curAngle_length i a) (by simpa using h.headerStored)
    (s.driveServo_trace i a) (eventSafe_driveEvents h.cfgValid i a)

theorem Inv.initAll {s : State} (h : Inv s) : Inv s.initAll :=
  h.extend s.initAll_cfg s.initAll_curAngle_length (by simpa using h.headerStored)
    (by rw [State.initAll_of_valid h.cfgValid h.anglesLength]) (eventSafe_initEvents h.cfgValid)

theorem Inv.restart {s : State} (h : Inv s) : Inv s.restart := by
  refine h.extend s.restart_cfg ?_ (fun hne => absurd s.restart_dstate hne) (es := initEvents s.cfg) ?_
    (eventSafe_initEvents h.cfgValid)
  · rw [State.restart_of_valid h.cfgValid h.anglesLength, h.anglesLength, h.cfgValid.initAngles_length]
  · rw [State.restart_of_valid h.cfgValid h.anglesLength]

theorem Inv.exec_local {i : Instr} {s t : State} (h : Inv s) (hi : i.isLocal = true) (ht : exec i s = .next t) : Inv t := by
  cases i with
  | setAngle i a => cases ht; exact h.driveServo i a
  | getAngle i x => cases ht; exact h.extend rfl rfl h.headerStored rfl (by simp [EventSafe])
  | disableAll x => cases ht; exact h.extend rfl rfl h.headerStored rfl (eventSafe_disableEvents s.cfg)
  | init x => cases ht; exact h.initAll
  | _ => cases hi

/-! ### The range of the stored angles over each transition -/

theorem initAngleOf_le {c : Config} (hv : c.Valid) (i : Nat) : (initAngleOf c i).toNat ≤ angleMax := by
  by_cases hi : i < c.initAngles.length
  · exact hv.initAngles_le _ (initAngleOf_mem hi)
  · rw [initAngleOf, List.getD_eq_default _ _ (Nat.le_of_not_lt hi)]
    decide

theorem AnglesInRange.of_set {s t : State} {i : Nat} {a : Byte} (h : AnglesInRange s) (ha : a.toNat ≤ angleMax)
    (ht : t.curAngle = s.curAngle.set i a) : AnglesInRange t := by
  intro b hb
  rw [ht] at hb
  obtain hb | rfl := List.mem_or_eq_of_mem_set hb
  · exact h b hb
  · exact ha

theorem AnglesInRange.of_curAngle_eq {s t : State} (h : AnglesInRange s) (ht : t.curAngle = s.curAngle) :
    AnglesInRange t := by
  rwa [AnglesInRange, ht]

theorem AnglesInRange.driveServo {s : State} (h : AnglesInRange s) (i : Byte) {a : Byte} (ha : a.toNat ≤ angleMax) :
    AnglesInRange (s.driveServo i a) := by
  rcases s.driveServo_cases i a with ⟨_, hs⟩ | ⟨_, hs⟩
  · exact h.of_set ha (by rw [hs])
  · rwa [hs]

theorem AnglesInRange.closeFrame {s : State} (h : AnglesInRange s) (b : Byte) : AnglesInRange (s.closeFrame b) := by
  rcases s.closeFrame_cases b with ⟨_, _, _, hs⟩ | ⟨_, _, ha, hs⟩
  · exact h.of_curAngle_eq (by rw [hs])
  · exact h.of_set ha (by rw [hs])

theorem AnglesInRange.receiveByte {s : State} (h : AnglesInRange s) (b : Byte) : AnglesInRange (s.receiveByte b) := by
  rcases s.receiveByte_cases b with ⟨_, _, hr⟩ | ⟨_, _, hr⟩ | ⟨_, hr⟩ | ⟨_, hr⟩ | ⟨_, hr⟩ <;> rw [hr]
  case inr.inr.inr.inr => exact h.closeFrame b
  all_goals exact h

theorem AnglesInRange.initAll {s : State} (hv : s.cfg.Valid) (h : AnglesInRange s) : AnglesInRange s.initAll := by
  have hrounds := List.foldlRecOn (List.range s.cfg.servoCount) State.initServo
    (motive := fun u => u.cfg = s.cfg ∧ AnglesInRange u) (b := s.emit [.pwmSetFrequency s.cfg.pwmFreq]) ⟨rfl, h⟩
    fun u ⟨hc, hu⟩ i _ => ⟨by rwa [State.initServo, State.driveServo_cfg], hu.driveServo _ (initAngleOf_le (hc ▸ hv) i)⟩
  exact hrounds.2

end Sys2Proof.Machine

namespace Sys2Proof.Proofs.Invariants

open Sys2Proof.Machine

/-- Settles O37: a step waits, takes an arrival that is no event, or runs an operation whose transitions keep the invariant one
by one. -/
theorem everyStepKeepsTheInvariant : Obligations.EveryStepKeepsTheInvariant := by
  intro s t h hstep
  obtain ⟨_, ⟨_, rfl⟩ | ⟨x, rest, _, ⟨_, rfl⟩ | ⟨w, i, hx, hd, _, hexec⟩⟩⟩ := step_cases hstep
  · exact h
  · exact h.withPending rest
  · have h' := h.withPending rest
    obtain ⟨bs, hbs⟩ | hlocal | rfl := exec_of_fetched hx hd
    · obtain rfl : State.receiveBytes { s with pending := rest } bs = t :=
        Host.Outcome.next.inj ((hbs { s with pending := rest } rfl).symm.trans hexec)
      exact State.receiveBytes_induct (fun u b hu => hu.receiveByte b) bs h'
    · exact h'.exec_local hlocal hexec
    · obtain rfl : State.restart _ = t := Host.Outcome.next.inj hexec
      exact h'.restart

/-- Settles O38: right after reset no frame is in progress and the trace is INIT's events. -/
theorem invariantHoldsAfterReset : Obligations.InvariantHoldsAfterReset := by
  have hreset (c : Config) (hv : c.Valid) : Inv (State.resetWith c) :=
    ⟨hv, hv.initAngles_length, fun hne => absurd rfl hne, eventSafe_initEvents hv⟩
  exact ⟨hreset, hreset Config.reference Config.reference_valid⟩

/-- Settles O39: what is stored is an angle that finalize has checked, a configured initial angle, or SETANGLE's operand. -/
theorem storedAnglesStayInRange : Obligations.StoredAnglesStayInRange := by
  intro i s t hv h hi ht
  cases i with
  | servoCmd i a c =>
    obtain rfl : s.receiveBytes [header, i, a, c] = t := Host.Outcome.next.inj ht
    exact State.receiveBytes_induct (fun u b hu => hu.receiveByte b) _ h
  | csumFinal b => cases ht; exact h.closeFrame b
  | setAngle i a => cases ht; exact h.driveServo i hi
  | init x => cases ht; exact h.initAll hv
  | reset => cases ht; exact AnglesInRange.initAll (s := { s.freePacket with dstate := _, started := _ }) hv h
  | _ => cases ht; exact h

end Sys2Proof.Proofs.Invariants
end

section
/-!
What cannot be observed (10_state.md sections 3, 4, 9): two relations between states that every step or operation keeps, one for
the buffer cells not yet filled, one for the stored angles.
-/

namespace Sys2Proof.Machine

/-- Two runs through one list of bytes keep whatever relation one byte keeps. -/
theorem State.receiveBytes_rel {R : State → State → Prop} (h : ∀ u v b, R u v → R (u.receiveByte b) (v.receiveByte b))
    (bs : List Byte) {s t : State} (hst : R s t) : R (s.receiveBytes bs) (t.receiveBytes bs) :=
  List.foldl_rel hst fun b _ u v huv => h u v b huv

/-! ### Buffer cells not yet filled -/

/-- Two packets that agree in the cells the frame in progress has filled (R15). -/
def FilledCellsAgree (d : DState) (p q : Packet) : Prop :=
  (d ≠ .awaitingHeader → p.cell0 = q.cell0) ∧
  (d = .awaitingAngle ∨ d = .awaitingChecksum → p.cell1 = q.cell1) ∧
  (d = .awaitingChecksum → p.cell2 = q.cell2)

/-- States that differ in unfilled cells at most are one state but for the packet. -/
theorem sameButUnfilled_iff {s t : State} :
    SameButUnfilled s t ↔ ∃ p, t = { s with packet := p } ∧ FilledCellsAgree s.dstate s.packet p := by
  constructor
  · rintro ⟨hcfg, hd, hang, hstarted, hpending, htrace, hfree, hcells⟩
    refine ⟨t.packet, ?_, hcells⟩
    cases s; cases t
    simp_all
  · rintro ⟨p, rfl, hcells⟩
    exact ⟨rfl, rfl, rfl, rfl, rfl, rfl, rfl, hcells⟩

theorem SameButUnfilled.refl (s : State) : SameButUnfilled s s :=
  sameButUnfilled_iff.2 ⟨s.packet, rfl, fun _ => rfl, fun _ => rfl, fun _ => rfl⟩

/-- A fourth byte finds every cell that finalize reads filled. -/
theorem State.closeFrame_withPacket {s : State} {p : Packet} (h0 : s.packet.cell0 = p.cell0)
    (h1 : s.packet.cell1 = p.cell1) (h2 : s.packet.cell2 = p.cell2) (b : Byte) :
    State.closeFrame { s with packet := p } b = s.closeFrame b := by
  have hstore : State.storeChecksum { s with packet := p } b = s.storeChecksum b := by
    simp only [State.storeChecksum, h0, h1, h2]
  rw [State.closeFrame, hstore, State.closeFrame]

/-- A byte fills the next cell with the same value on both sides, or finalizes filled cells alone. -/
theorem SameButUnfilled.receiveByte {s t : State} (h : SameButUnfilled s t) (b : Byte) :
    SameButUnfilled (s.receiveByte b) (t.receiveByte b) := by
  obtain ⟨p, ht, h0, h1, h2⟩ := sameButUnfilled_iff.1 h
  have hdt : t.dstate = s.dstate := by rw [ht]
  rcases s.receiveByte_cases b with ⟨hd, rfl, hs⟩ | ⟨hd, hb, hs⟩ | ⟨hd, hs⟩ | ⟨hd, hs⟩ | ⟨hd, hs⟩
  · rw [hs, t.receiveByte_of_header (hdt.trans hd), ht]
    exact sameButUnfilled_iff.2 ⟨{ p with cell0 := header }, rfl, by simp [FilledCellsAgree]⟩
  · rwa [hs, t.receiveByte_of_noise (hdt.trans hd) hb]
  · rw [hs, t.receiveByte_of_index b (hdt.trans hd), ht]
    exact sameButUnfilled_iff.2 ⟨{ p with cell1 := b }, rfl, by simp_all [FilledCellsAgree]⟩
  · rw [hs, t.receiveByte_of_angle b (hdt.trans hd), ht]
    exact sameButUnfilled_iff.2 ⟨{ p with cell2 := b }, rfl, by simp_all [FilledCellsAgree]⟩
  · rw [hs, t.receiveByte_of_checksum b (hdt.trans hd), ht,
      State.closeFrame_withPacket (h0 (by rw [hd]; decide)) (h1 (.inr hd)) (h2 hd)]
    exact .refl _

theorem State.driveServo_withPacket (s : State) (p : Packet) (i a : Byte) :
    State.driveServo { s with packet := p } i a = { s.driveServo i a with packet := p } := by
  rcases s.driveServo_cases i a with ⟨hi, h⟩ | ⟨hi, h⟩
  · rw [h, State.driveServo_of_valid (s := { s with packet := p }) a hi]
  · rw [h, State.driveServo_of_invalid (s := { s with packet := p }) a hi]

theorem State.initServo_withPacket (p : Packet) (s : State) (i : Nat) :
    State.initServo { s with packet := p } i = { s.initServo i with packet := p } :=
  s.driveServo_withPacket p _ _

theorem State.initAll_withPacket (s : State) (p : Packet) :
    State.initAll { s with packet := p } = { s.initAll with packet := p } := by
  have hrounds := List.foldl_hom (fun u : State => ({ u with packet := p } : State)) (l := List.range s.cfg.servoCount)
    (init := s.emit [.pwmSetFrequency s.cfg.pwmFreq]) (State.initServo_withPacket p)
  exact hrounds

/-- The packet has no part in a local operation. -/
theorem exec_local_withPacket {i : Instr} {s t : State} (hi : i.isLocal = true) (h : exec i s = .next t) (p : Packet) :
    exec i { s with packet := p } = .next { t with packet := p } := by
  cases i with
  | setAngle i a => cases h; exact congrArg _ (s.driveServo_withPacket p i a)
  | getAngle i x => cases h; rfl
  | disableAll x => cases h; rfl
  | init x => cases h; exact congrArg _ (s.initAll_withPacket p)
  | _ => cases hi

/-- A local operation leaves the packet and the decoder's state alone, and with them what is filled. -/
theorem SameButUnfilled.exec_local {i : Instr} {s t s' : State} (h : SameButUnfilled s t) (hi : i.isLocal = true)
    (hs : exec i s = .next s') : ∃ t', exec i t = .next t' ∧ SameButUnfilled s' t' := by
  obtain ⟨p, rfl, hcells⟩ := sameButUnfilled_iff.1 h
  obtain ⟨hd, hpacket, _⟩ := exec_local_frame hi hs
  refine ⟨_, exec_local_withPacket hi hs p, sameButUnfilled_iff.2 ⟨p, rfl, ?_⟩⟩
  rwa [hd, hpacket]

/-- RESET overwrites the whole packet. -/
theorem SameButUnfilled.restart_eq {s t : State} (h : SameButUnfilled s t) : t.restart = s.restart := by
  obtain ⟨p, rfl, _⟩ := sameButUnfilled_iff.1 h
  rfl

theorem SameButUnfilled.withPending {s t : State} (h : SameButUnfilled s t) (p : List Arrival) :
    SameButUnfilled { s with pending := p } { t with pending := p } := by
  obtain ⟨q, rfl, hcells⟩ := sameButUnfilled_iff.1 h
  exact sameButUnfilled_iff.2 ⟨q, rfl, hcells⟩

/-! ### The stored angles -/

/-- Two states that differ in the stored angles at most. -/
def SameButAngles (s t : State) : Prop := ∃ angles, t = { s with curAngle := angles }

theorem SameButAngles.driveServo {s t : State} (h : SameButAngles s t) (i a : Byte) :
    SameButAngles (s.driveServo i a) (t.driveServo i a) := by
  obtain ⟨angles, rfl⟩ := h
  rcases s.driveServo_cases i a with ⟨hi, hs⟩ | ⟨hi, hs⟩
  · rw [hs, State.driveServo_of_valid (s := { s with curAngle := angles }) a hi]
    exact ⟨_, rfl⟩
  · rw [hs, State.driveServo_of_invalid (s := { s with curAngle := angles }) a hi]
    exact ⟨_, rfl⟩

theorem SameButAngles.closeFrame {s t : State} (h : SameButAngles s t) (b : Byte) :
    SameButAngles (s.closeFrame b) (t.closeFrame b) := by
  obtain ⟨angles, rfl⟩ := h
  rcases s.closeFrame_cases b with ⟨k, hk, hout, hs⟩ | ⟨hout, _, _, hs⟩
  · rw [hs, State.closeFrame_of_rejected (s := { s with curAngle := angles }) hout hk]
    exact ⟨_, rfl⟩
  · rw [hs, State.closeFrame_of_accepted (s := { s with curAngle := angles }) hout]
    exact ⟨_, rfl⟩

theorem SameButAngles.receiveByte {s t : State} (h : SameButAngles s t) (b : Byte) :
    SameButAngles (s.receiveByte b) (t.receiveByte b) := by
  obtain ⟨angles, ht⟩ := id h
  have hdt : t.dstate = s.dstate := by rw [ht]
  rcases s.receiveByte_cases b with ⟨hd, rfl, hs⟩ | ⟨hd, hb, hs⟩ | ⟨hd, hs⟩ | ⟨hd, hs⟩ | ⟨hd, hs⟩
  · rw [hs, t.receiveByte_of_header (hdt.trans hd), ht]
    exact ⟨angles, rfl⟩
  · rwa [hs, t.receiveByte_of_noise (hdt.trans hd) hb]
  · rw [hs, t.receiveByte_of_index b (hdt.trans hd), ht]
    exact ⟨angles, rfl⟩
  · rw [hs, t.receiveByte_of_angle b (hdt.trans hd), ht]
    exact ⟨angles, rfl⟩
  · rw [hs, t.receiveByte_of_checksum b (hdt.trans hd)]
    exact h.closeFrame b

/-- INIT's rounds read the configuration alone, which the relation holds equal. -/
theorem SameButAngles.initServo {s t : State} (h : SameButAngles s t) (i : Nat) :
    SameButAngles (s.initServo i) (t.initServo i) := by
  have hdrive := h.driveServo (BitVec.ofNat 8 i) (initAngleOf s.cfg i)
  obtain ⟨angles, rfl⟩ := h
  exact hdrive

theorem SameButAngles.initAll {s t : State} (h : SameButAngles s t) : SameButAngles s.initAll t.initAll := by
  obtain ⟨angles, rfl⟩ := h
  exact List.foldl_rel (r := SameButAngles) ⟨angles, rfl⟩ fun i _ _ _ huv => huv.initServo i

theorem SameButAngles.restart {s t : State} (h : SameButAngles s t) : SameButAngles s.restart t.restart := by
  obtain ⟨angles, rfl⟩ := h
  exact SameButAngles.initAll ⟨angles, rfl⟩

/-- Every operation but GETANGLE keeps the relation. -/
theorem SameButAngles.exec {i : Instr} {s t s' : State} (h : SameButAngles s t) (hi : ∀ idx x, i ≠ .getAngle idx x)
    (hs : exec i s = .next s') : ∃ t', exec i t = .next t' ∧ SameButAngles s' t' := by
  cases i with
  | getAngle idx x => exact absurd rfl (hi idx x)
  | servoCmd i a c =>
    obtain rfl : s.receiveBytes [header, i, a, c] = s' := Host.Outcome.next.inj hs
    exact ⟨_, exec_servoCmd i a c t, State.receiveBytes_rel (fun _ _ b huv => huv.receiveByte b) _ h⟩
  | csumFinal b => cases hs; exact ⟨_, rfl, h.closeFrame b⟩
  | setAngle i a => cases hs; exact ⟨_, rfl, h.driveServo i a⟩
  | init x => cases hs; exact ⟨_, rfl, h.initAll⟩
  | reset => cases hs; exact ⟨_, rfl, h.restart⟩
  | _ => cases hs; obtain ⟨angles, rfl⟩ := h; exact ⟨_, rfl, angles, rfl⟩

end Sys2Proof.Machine

namespace Sys2Proof.Proofs.Observation

open Sys2Proof.Machine

/-- Settles O51: the step takes the same path on both states, since fetch reads no buffer cell, and every operation it can run
keeps the relation. -/
theorem unfilledBufferIsUnobservable : Obligations.UnfilledBufferIsUnobservable := by
  intro s t s' hst hstep
  have ⟨hcfg, hd, _, hstarted, hpending, _⟩ := hst
  obtain ⟨hv, ⟨hp, rfl⟩ | ⟨x, rest, hp, hcases⟩⟩ := step_cases hstep
  all_goals
    rw [hcfg] at hv
    rw [hpending] at hp
  · exact ⟨t, step_of_no_arrival hv hp, hst⟩
  have hst' := hst.withPending rest
  obtain ⟨hx, rfl⟩ | ⟨w, i, hx, hdec, hs, hexec⟩ := hcases
  · exact ⟨_, step_of_nothing hv hp (hd ▸ hx), hst'⟩
  · rw [step_eq_exec hv (hstarted ▸ hs) hp (hd ▸ hx) hdec]
    obtain ⟨bs, hbs⟩ | hlocal | rfl := exec_of_fetched hx hdec
    · obtain rfl : State.receiveBytes { s with pending := rest } bs = s' :=
        Host.Outcome.next.inj ((hbs { s with pending := rest } rfl).symm.trans hexec)
      exact ⟨_, hbs _ hd.symm, State.receiveBytes_rel (fun _ _ b huv => huv.receiveByte b) bs hst'⟩
    · exact hst'.exec_local hlocal hexec
    · obtain rfl : State.restart { s with pending := rest } = s' := Host.Outcome.next.inj hexec
      exact ⟨_, exec_reset _, hst'.restart_eq ▸ .refl _⟩

/-- Settles O52: no transition but GETANGLE's answer reads the array. -/
theorem storedAnglesOnlyReachGetAngle : Obligations.StoredAnglesOnlyReachGetAngle := by
  intro i s t angles hi ht
  obtain ⟨_, ht', angles', rfl⟩ := SameButAngles.exec (t := { s with curAngle := angles }) ⟨angles, rfl⟩ hi ht
  exact ⟨angles', ht'⟩

end Sys2Proof.Proofs.Observation
end
